-- ==== Sys2Proof/Word.lean ====
section
/-!
DEFINITION. The values of the machine (spec 00_scope.md R5, R7). A cell holds one mathematical integer, an `Int`: the
domain `INT` with `W = infinity`. An address and the program counter are natural numbers, `Nat`: the domain `ADDR`.
Nothing has a width, nothing wraps, and there are no bit fields, so no value is a bit vector.
-/
namespace Sys2Proof

/-- A program image (spec R9): the integers loaded into cells 0, 1, ... at construction. -/
abbrev Image := List Int

end Sys2Proof
end

