-- ==== Sys2Proof/Syntax.lean ====
section
/-!
DEFINITION. The instruction set (spec 30_encoding.md R50, R53, R55, R56): the three addressing modes, the operand
forms, and one constructor of `Instr` per row of spec/opcode_table.json, with its opcode, arity and write count.
-/
namespace Sys2Proof

/-- The addressing modes of a read parameter (R55), digits 0, 1 and 2. -/
inductive Mode where
  | position
  | immediate
  | relative
  deriving DecidableEq, Repr

/-- The addressing modes of a write parameter (R55, R60), digits 0 and 2. -/
inductive WriteMode where
  | position
  | relative
  deriving DecidableEq, Repr

/-- A read parameter: its mode and its raw word `p`, any integer (R55, R56). -/
inductive Src where
  /-- Mode 0: the value is the content of cell `p`. -/
  | position (p : Int)
  /-- Mode 1: the value is `p` itself. -/
  | immediate (p : Int)
  /-- Mode 2: the value is the content of cell `rb + p`. -/
  | relative (p : Int)
  deriving DecidableEq, Repr

/-- A write parameter: its mode and its raw word `p` (R55). There is no immediate form: R60 makes it a
decode fault. -/
inductive Dst where
  /-- Mode 0: the address is `p`. -/
  | position (p : Int)
  /-- Mode 2: the address is `rb + p`. -/
  | relative (p : Int)
  deriving DecidableEq, Repr

/-- The ten instructions of spec/opcode_table.json, read parameters first, then the write parameter (R53). -/
inductive Instr where
  /-- ADD, opcode 1 (R90). -/
  | add (a b : Src) (d : Dst)
  /-- MUL, opcode 2 (R91). -/
  | mul (a b : Src) (d : Dst)
  /-- IN, opcode 3 (R95). -/
  | inp (d : Dst)
  /-- OUT, opcode 4 (R96). -/
  | out (a : Src)
  /-- JNZ, opcode 5 (R100). -/
  | jnz (a b : Src)
  /-- JZ, opcode 6 (R101). -/
  | jz (a b : Src)
  /-- LT, opcode 7 (R105). -/
  | lt (a b : Src) (d : Dst)
  /-- EQ, opcode 8 (R106). -/
  | eq (a b : Src) (d : Dst)
  /-- ARB, opcode 9 (R110). -/
  | arb (a : Src)
  /-- HLT, opcode 99 (R115). -/
  | hlt
  deriving DecidableEq, Repr

/-- The opcode, the low two decimal digits of the opcode word (R51, R53). -/
def Instr.opcode : Instr → Nat
  | .add _ _ _ => 1
  | .mul _ _ _ => 2
  | .inp _ => 3
  | .out _ => 4
  | .jnz _ _ => 5
  | .jz _ _ => 6
  | .lt _ _ _ => 7
  | .eq _ _ _ => 8
  | .arb _ => 9
  | .hlt => 99

/-- The arity `k`, the number of parameter words (R53). -/
def Instr.arity : Instr → Nat
  | .add _ _ _ | .mul _ _ _ | .lt _ _ _ | .eq _ _ _ => 3
  | .jnz _ _ | .jz _ _ => 2
  | .inp _ | .out _ | .arb _ => 1
  | .hlt => 0

/-- The write count `wc` (R53). -/
def Instr.writes : Instr → Nat
  | .add _ _ _ | .mul _ _ _ | .inp _ | .lt _ _ _ | .eq _ _ _ => 1
  | .out _ | .jnz _ _ | .jz _ _ | .arb _ | .hlt => 0

/-- The length in cells, `1 + k` (R50, R54). -/
def Instr.length (i : Instr) : Nat :=
  1 + i.arity

/-- The raw word of a read parameter. -/
def Src.word : Src → Int
  | .position p | .immediate p | .relative p => p

/-- The raw word of a write parameter. -/
def Dst.word : Dst → Int
  | .position p | .relative p => p

/-- The mode of a read parameter. -/
def Src.mode : Src → Mode
  | .position _ => .position
  | .immediate _ => .immediate
  | .relative _ => .relative

/-- The mode of a write parameter. -/
def Dst.mode : Dst → WriteMode
  | .position _ => .position
  | .relative _ => .relative

/-- The parameter words in order (R50). -/
def Instr.params : Instr → List Int
  | .add a b d | .mul a b d | .lt a b d | .eq a b d => [a.word, b.word, d.word]
  | .jnz a b | .jz a b => [a.word, b.word]
  | .inp d => [d.word]
  | .out a | .arb a => [a.word]
  | .hlt => []

/-- The read parameters in order (R53). -/
def Instr.sources : Instr → List Src
  | .add a b _ | .mul a b _ | .lt a b _ | .eq a b _ | .jnz a b | .jz a b => [a, b]
  | .out a | .arb a => [a]
  | .inp _ | .hlt => []

/-- The write parameter, if the instruction has one (R53). -/
def Instr.dest : Instr → Option Dst
  | .add _ _ d | .mul _ _ d | .lt _ _ d | .eq _ _ d | .inp d => some d
  | .out _ | .arb _ | .jnz _ _ | .jz _ _ | .hlt => none

end Sys2Proof
end

