-- ==== Sys2Proof/Config.lean ====
section
/-!
DEFINITION. What an implementation fixes (spec 00_scope.md R5): the three parameters a model may take as
arguments, the values the spec takes for them, and the free values of a callable input source.
-/
namespace Sys2Proof

/-- The implementation parameters of R5. `none` stands for infinity. -/
structure Variant where
  /-- `W`, the width in bits of every integer (R83). -/
  width : Option Nat
  /-- `MEM_CAP`, the largest address the memory can hold (R48). -/
  memCap : Option Nat
  /-- `STRICT_DIGITS`, whether surplus digits of an opcode word are an error (R61). -/
  strictDigits : Bool
  deriving DecidableEq, Repr

/-- The values the spec takes (R5): `W` and `MEM_CAP` infinite, surplus digits ignored. -/
def Config.spec : Variant :=
  { width := none, memCap := none, strictDigits := false }

/-- The values a callable input source yields (R124): `Config.callableValue f n` is what callable `f` answers
to its call number `n`. FREE VALUE (log 7): the host's program decides it, nothing constrains it. -/
opaque Config.callableValue : Nat → Nat → Int

/-- A finite width is at least 64 bits (R5, R83). -/
def Variant.Legal (c : Variant) : Prop :=
  ∀ W, c.width = some W → 64 ≤ W

/-- Whether an integer lies in `-2^(W-1) .. 2^(W-1) - 1` (R83); every integer does when `W` is infinite. -/
def Variant.fits (c : Variant) (v : Int) : Bool :=
  match c.width with
  | none => true
  | some W => decide (-(2 ^ (W - 1) : Int) ≤ v ∧ v ≤ (2 ^ (W - 1) : Int) - 1)

/-- Whether the memory can hold the cell `a` (R48); it can hold every cell when `MEM_CAP` is infinite. -/
def Variant.holds (c : Variant) (a : Nat) : Bool :=
  match c.memCap with
  | none => true
  | some cap => decide (a ≤ cap)

end Sys2Proof
end

