-- ==== Sys2Proof/WellFormed.lean ====
section
/-!
DEFINITION. Which instructions a variant of the machine can hold in its memory (spec 00_scope.md R5, 40 R83):
every parameter word is an integer of the variant's width. What else the spec forbids in an instruction (an
immediate write parameter, R60; a mode digit above 2, R59; an unknown opcode, R57) has no term in `Instr`.
-/
namespace Sys2Proof

/-- Every parameter word fits the variant's width (R83). With the spec's own parameters (R5) every
instruction is well formed. -/
def WellFormed (c : Variant) (i : Instr) : Bool :=
  i.params.all c.fits

end Sys2Proof
end

