-- ==== Sys2Proof/Decode.lean ====
section
/-!
DEFINITION. The decoder (spec 30_encoding.md R51 to R63) and, after it, the encoder (R50, R64). The opcode word
is split into decimal digits; every word is either decoded or rejected under the name of its cause.
-/
namespace Sys2Proof

/-- The decimal digit of weight `10^j` (R7). -/
def digit (w j : Nat) : Nat :=
  w / 10 ^ j % 10

/-- The three sub-causes of `DecodeError` (R57 to R60), each with the opcode word. -/
inductive DecodeError where
  /-- The word is negative (R58) or its low two digits are no opcode (R57). -/
  | invalidOpcode (w : Int)
  /-- The write parameter's mode digit is 1 (R60). -/
  | writeImmediate (w : Int)
  /-- A mode digit that belongs to the instruction is above 2 (R59). -/
  | invalidMode (w : Int)
  deriving DecidableEq, Repr

/-- What the opcode word alone says (R63): the operation, hence `k` and `wc`, and the `k` modes. -/
inductive Header where
  | add (m1 m2 : Mode) (m3 : WriteMode)
  | mul (m1 m2 : Mode) (m3 : WriteMode)
  | inp (m1 : WriteMode)
  | out (m1 : Mode)
  | jnz (m1 m2 : Mode)
  | jz (m1 m2 : Mode)
  | lt (m1 m2 : Mode) (m3 : WriteMode)
  | eq (m1 m2 : Mode) (m3 : WriteMode)
  | arb (m1 : Mode)
  | hlt
  deriving DecidableEq, Repr

/-- The arity `k` (R53). -/
def Header.arity : Header → Nat
  | .add _ _ _ | .mul _ _ _ | .lt _ _ _ | .eq _ _ _ => 3
  | .jnz _ _ | .jz _ _ => 2
  | .inp _ | .out _ | .arb _ => 1
  | .hlt => 0

/-- The mode digit of parameter `i` is `digit(w, i + 1)` (R51). -/
def modeDigit (w i : Nat) : Nat :=
  digit w (i + 1)

/-- The mode of read parameter `i` (R55, R59). -/
def readMode (w i : Nat) : Except DecodeError Mode :=
  match modeDigit w i with
  | 0 => .ok .position
  | 1 => .ok .immediate
  | 2 => .ok .relative
  | _ => .error (.invalidMode w)

/-- The mode of write parameter `i` (R55, R59, R60). -/
def writeMode (w i : Nat) : Except DecodeError WriteMode :=
  match modeDigit w i with
  | 0 => .ok .position
  | 1 => .error (.writeImmediate w)
  | 2 => .ok .relative
  | _ => .error (.invalidMode w)

/-- The end of decoding: in a variant with `STRICT_DIGITS`, a non-zero digit of weight `10^(k+2)` or above
is `InvalidMode` (R61); else such digits are ignored. DESIGN CHOICE: tested after the mode digits (log 10). -/
def surplusCheck (c : Variant) (w : Nat) (h : Header) : Except DecodeError Header :=
  if c.strictDigits && w / 10 ^ (h.arity + 2) != 0 then .error (.invalidMode w) else .ok h

/-- Format `P3W`: two read parameters and a write parameter (R53, R67). -/
def decodeP3W (w : Nat) (mk : Mode → Mode → WriteMode → Header) : Except DecodeError Header := do
  let m1 ← readMode w 1
  let m2 ← readMode w 2
  let m3 ← writeMode w 3
  .ok (mk m1 m2 m3)

/-- Format `P1W`: one write parameter (R53, R67). -/
def decodeP1W (w : Nat) (mk : WriteMode → Header) : Except DecodeError Header := do
  let m1 ← writeMode w 1
  .ok (mk m1)

/-- Format `P1`: one read parameter (R53, R67). -/
def decodeP1 (w : Nat) (mk : Mode → Header) : Except DecodeError Header := do
  let m1 ← readMode w 1
  .ok (mk m1)

/-- Format `P2`: two read parameters (R53, R67). -/
def decodeP2 (w : Nat) (mk : Mode → Mode → Header) : Except DecodeError Header := do
  let m1 ← readMode w 1
  let m2 ← readMode w 2
  .ok (mk m1 m2)

/-- The opcode table (R53, R57) and the mode digits (R63) of a non-negative opcode word. -/
def decodeTable (w : Nat) : Except DecodeError Header :=
  match w % 100 with
  | 1 => decodeP3W w .add
  | 2 => decodeP3W w .mul
  | 3 => decodeP1W w .inp
  | 4 => decodeP1 w .out
  | 5 => decodeP2 w .jnz
  | 6 => decodeP2 w .jz
  | 7 => decodeP3W w .lt
  | 8 => decodeP3W w .eq
  | 9 => decodeP1 w .arb
  | 99 => .ok .hlt
  | _ => .error (.invalidOpcode w)

/-- `Decode(w)` of R63: a negative word is `InvalidOpcode` before anything else is examined (R58). -/
def decodeWord (c : Variant) (w : Int) : Except DecodeError Header :=
  if w < 0 then .error (.invalidOpcode w) else
  (decodeTable w.toNat).bind (surplusCheck c w.toNat)

/-- A read parameter of a mode and a raw word (R55, R56). -/
def Mode.src : Mode → Int → Src
  | .position, p => .position p
  | .immediate, p => .immediate p
  | .relative, p => .relative p

/-- A write parameter of a mode and a raw word (R55, R56). -/
def WriteMode.dst : WriteMode → Int → Dst
  | .position, p => .position p
  | .relative, p => .relative p

/-- The instruction of a decoded opcode word and its parameter words (R50); words beyond the arity are not
part of it. -/
def Header.instr : Header → Int → Int → Int → Instr
  | .add m1 m2 m3, p1, p2, p3 => .add (m1.src p1) (m2.src p2) (m3.dst p3)
  | .mul m1 m2 m3, p1, p2, p3 => .mul (m1.src p1) (m2.src p2) (m3.dst p3)
  | .inp m1, p1, _, _ => .inp (m1.dst p1)
  | .out m1, p1, _, _ => .out (m1.src p1)
  | .jnz m1 m2, p1, p2, _ => .jnz (m1.src p1) (m2.src p2)
  | .jz m1 m2, p1, p2, _ => .jz (m1.src p1) (m2.src p2)
  | .lt m1 m2 m3, p1, p2, p3 => .lt (m1.src p1) (m2.src p2) (m3.dst p3)
  | .eq m1 m2 m3, p1, p2, p3 => .eq (m1.src p1) (m2.src p2) (m3.dst p3)
  | .arb m1, p1, _, _ => .arb (m1.src p1)
  | .hlt, _, _, _ => .hlt

/-- The decoder on a list of cells: the instruction the list begins with, and the cells after it. A cell past
the end of the list is one that nothing wrote: it reads 0 (R37, R73). -/
def decode (ws : List Int) : Except DecodeError (Instr × List Int) :=
  match decodeWord Config.spec (ws.getD 0 0) with
  | .error e => .error e
  | .ok h => .ok (h.instr (ws.getD 1 0) (ws.getD 2 0) (ws.getD 3 0), ws.drop (1 + h.arity))

/-- The host's question about a row of spec/opcode_table.json: the number `w` is the opcode word, whatever
`nbits` (a cell has no width, so all bits are the first cell's), and the parameter words are 0 (log 4). -/
def decodeTableWord (nbits w : Nat) : Option Instr :=
  match nbits, decode [w, 0, 0, 0] with
  | _, .ok (i, _) => some i
  | _, .error _ => none

/-- The mode digit of a mode (R55). -/
def Mode.digit : Mode → Nat
  | .position => 0
  | .immediate => 1
  | .relative => 2

/-- The mode digit of a write parameter's mode (R55). -/
def WriteMode.digit : WriteMode → Nat
  | .position => 0
  | .relative => 2

/-- The mode digits in parameter order (R51). -/
def Instr.modeDigits : Instr → List Nat
  | .add a b d | .mul a b d | .lt a b d | .eq a b d => [a.mode.digit, b.mode.digit, d.mode.digit]
  | .jnz a b | .jz a b => [a.mode.digit, b.mode.digit]
  | .inp d => [d.mode.digit]
  | .out a | .arb a => [a.mode.digit]
  | .hlt => []

/-- The canonical opcode word `opcode + 100*m1 + 1000*m2 + 10000*m3` (R50, R64), all higher digits zero. -/
def opcodeWord (i : Instr) : Nat :=
  i.opcode + 100 * i.modeDigits.getD 0 0 + 1000 * i.modeDigits.getD 1 0 + 10000 * i.modeDigits.getD 2 0

/-- The cells of an instruction: the opcode word and the parameter words (R50). -/
def encode (i : Instr) : List Int :=
  (opcodeWord i : Int) :: i.params

end Sys2Proof
end

