-- ==== Sys2Proof/Machine/State.lean ====
section
/-!
DEFINITION. The state of one instance as plain data (spec 10_state.md R10 to R23), with the host's side of a
transaction beside it (R22, R121, R136), the fault causes (60_exceptions.md R150), and the state after reset.
-/
namespace Sys2Proof.Machine

/-- The memory `M` (R20): the cells that differ from what an unlisted cell reads as, addresses strictly rising. -/
abbrev Mem := List (Nat × Int)

/-- What a cell that nothing has written reads as (R37). -/
def Mem.unlisted : Int := 0

/-- The run state (R17, R120). -/
inductive RunState where
  /-- Not started yet, or inside a transaction. -/
  | running
  /-- The instruction at `pc` is an IN whose input was not available. -/
  | awaitingInput
  /-- An OUT has just completed. -/
  | producedOutput
  /-- A HLT has executed; terminal. -/
  | halted
  /-- A fault was raised; terminal. -/
  | faulted
  deriving DecidableEq, Repr

/-- The causes of R150. The spec describes what taking each of them does (R159), so each is taken as a NEXT
state (`State.raise`), recorded in `State.fault`, and no step of this machine answers `Outcome.fault`. SAFE: no
run ends in that outcome, and the fault state is the one the spec describes. -/
inductive Fault where
  /-- Raised by the decoder on a negative word or an unknown opcode (R151). Safe: the spec's own fault. -/
  | invalidOpcode
  /-- Raised by the decoder on mode digit 1 of a write parameter (R152). Safe: the spec's own fault. -/
  | writeImmediate
  /-- Raised by the decoder on a mode digit 3 to 9 (R153). Safe: the spec's own fault. -/
  | invalidMode
  /-- Raised by the operand resolver on a negative address and by a taken jump to one (R154). Safe: the spec's
  own fault. -/
  | addressError
  /-- Raised by IN without input when the transaction starves by faulting (R155). Safe: the spec's own fault. -/
  | inputStarvation
  /-- Raised only in a variant of finite width (R83, R156). Safe: never raised with the spec's parameters. -/
  | rangeError
  /-- Raised only in a variant of finite capacity (R48, R156). Safe: never raised with the spec's parameters. -/
  | capacityError
  deriving DecidableEq, Repr

/-- The fault record `(cause, info)` (R19, R150). -/
structure FaultRecord where
  cause : Fault
  info : Int
  deriving DecidableEq, Repr

/-- Why `exec` may give an instruction no meaning. Every arm of this model has one, so none is ever answered. -/
inductive Refusal where
  /-- Answered by `exec` for an instruction that has no meaning yet; none is left. Safe: the machine stops. -/
  | notModelled (mnemonic : String)
  deriving DecidableEq, Repr

/-- An input source (R124), in the two shapes the spec names. -/
inductive Source where
  /-- A FIFO queue: its head is pulled first; empty, it answers `none`. -/
  | queue (vals : List Int)
  /-- A callable that always has a value: callable number `id`, called `n` times so far. -/
  | callable (id n : Nat)
  deriving DecidableEq, Repr

/-- What the host does between transactions (R121, R136). -/
inductive HostMove where
  /-- `new(image)`: construction, the machine's reset (R180, R182). -/
  | construct (image : Image)
  /-- Installs an input source for the transactions that follow (R125). -/
  | install (src : Source)
  /-- Opens a transaction with the installed source and this starvation policy (R122, R130). -/
  | resume (starveFault : Bool)
  deriving DecidableEq, Repr

/-- The architectural state of R10 (the first six fields) and the host's side of the interface (the last four,
the MODEL's own, log 2: arguments of a transaction, R22, and the host's pending moves, R136). -/
structure State where
  /-- `M` (R20). -/
  mem : Mem
  /-- The program counter (R12). -/
  pc : Nat
  /-- The relative base (R15). -/
  rb : Int
  /-- `state`, the run state (R17). -/
  runState : RunState
  /-- The output latch (R18); `none` is the spec's "no value". -/
  out : Option Int
  /-- The fault record (R19); `none` is the spec's "no fault". -/
  fault : Option FaultRecord
  /-- The input source the host has installed (R22 b, R124). -/
  src : Source
  /-- The starvation policy of the current transaction (R22 c, R130). -/
  starveFault : Bool
  /-- Whether the host has opened a transaction on this instance yet (R17, R181). -/
  started : Bool
  /-- The host's moves to come, oldest first (R136). -/
  moves : List HostMove
  deriving DecidableEq, Repr

/-- The state after construction from the empty image (R23, R183): nothing runs until the host's first
`Resume` (R181). The last four fields are the model's own: DESIGN CHOICE (log 3). -/
def State.reset : State :=
  { mem := []
    pc := 0
    rb := 0
    runState := .running
    out := none
    fault := none
    src := .queue []
    starveFault := false
    started := false
    moves := [] }

end Sys2Proof.Machine
end

