-- ==== Sys2Proof/Machine/Ops.lean ====
section
/-!
DEFINITION. The named operations over memory and the rest of the state: the cell accessors (spec 20_memory.md R32,
R33), the checks of addresses and ranges (R34, R48, R83), taking a fault (60_exceptions.md R159), the input source
(50_suspend_resume.md R124), image load (70_reset_and_hazards.md R182) and the verification port (R168). There is
no return from a fault to put beside taking one: no instruction returns, `FAULTED` is terminal (R161).
-/
namespace Sys2Proof.Machine

/-- `MemRead(a, 1)` at an address that exists (R32): the cell's content, 0 if nothing wrote it (R37). -/
def Mem.read : Mem → Nat → Int
  | [], _ => Mem.unlisted
  | (b, v) :: m, a => if a = b then v else Mem.read m a

/-- The cells of a memory without cell `a`. -/
def Mem.erase (m : Mem) (a : Nat) : Mem :=
  m.filter fun c => c.1 != a

/-- A new cell put before the first cell of a higher address. -/
def Mem.insert : Mem → Nat → Int → Mem
  | [], a, v => [(a, v)]
  | (b, w) :: m, a, v => if a < b then (a, v) :: (b, w) :: m else (b, w) :: Mem.insert m a v

/-- `MemWrite(a, 1, v)` at an address that exists (R33), keeping the canonical form: writing what an unlisted
cell reads as leaves the cell unlisted. -/
def Mem.write (m : Mem) (a : Nat) (v : Int) : Mem :=
  if v = Mem.unlisted then m.erase a else (m.erase a).insert a v

/-- Every address of the list is at least `lo`, addresses strictly rise, no entry reads as an unlisted cell. -/
def Mem.wfFrom : Nat → Mem → Bool
  | _, [] => true
  | lo, (a, v) :: m => decide (lo ≤ a) && (v != Mem.unlisted) && Mem.wfFrom (a + 1) m

/-- The canonical form of memory: equal memories are equal lists. -/
def Mem.wf (m : Mem) : Bool :=
  Mem.wfFrom 0 m

/-- Image load (R182): cell `base + i` gets the `i`-th integer of the image. -/
def Mem.load (m : Mem) (base : Nat) : Image → Mem
  | [] => m
  | v :: vs => Mem.load (m.write base v) (base + 1) vs

/-- A resolved address must be non-negative (R34); the fault reports the negative number (R150). In a variant
of finite capacity it must not lie above `MEM_CAP` (R48). -/
def checkAddr (c : Variant) (a : Int) : Except FaultRecord Nat :=
  if a < 0 then .error ⟨.addressError, a⟩
  else if c.holds a.toNat then .ok a.toNat
  else .error ⟨.capacityError, a⟩

/-- A computed or received value must fit the variant's width (R83); the fault reports the instruction's `pc`
(R150). With the spec's parameters every value does (R80). -/
def checkRange (c : Variant) (s : State) (v : Int) : Except FaultRecord Int :=
  if c.fits v then .ok v else .error ⟨.rangeError, s.pc⟩

/-- `pc + n`: the address of a parameter word (R73) and the advance `pc + 1 + k` (R78). It is a computed sum like the
others (R82), so it must fit the variant's width (R83); with the spec's parameters it always does (R80). -/
def pcPlus (c : Variant) (s : State) (n : Nat) : Except FaultRecord Nat := do
  let _ ← checkRange c s ((s.pc + n : Nat) : Int)
  .ok (s.pc + n)

/-- One cell of the instruction stream, read through the same accessor as data (R30, R71, R73). -/
def fetchCell (c : Variant) (s : State) (a : Nat) : Except FaultRecord Int :=
  if c.holds a then .ok (s.mem.read a) else .error ⟨.capacityError, a⟩

/-- `raise F(info)` (R159): the record and the run state are written, nothing else changes. It is the whole of
taking a fault: no handler, no vector, nothing saved (R160). -/
def State.raise (f : FaultRecord) (s : State) : State :=
  { s with runState := .faulted, fault := some f }

/-- All or nothing (R79): the instruction completes with its effect, or the fault is taken in the state the step
began in. -/
def settle (s : State) (r : Except FaultRecord State) : Host.Outcome State Fault Refusal :=
  match r with
  | .ok t => .next t
  | .error f => .next (s.raise f)

/-- The one write of the program counter (R78). -/
def State.setPc (s : State) (a : Nat) : State :=
  { s with pc := a }

/-- The one memory write of an instruction (R40, R46). -/
def State.store (s : State) (a : Nat) (v : Int) : State :=
  { s with mem := s.mem.write a v }

/-- `Pull(src)` (R124): a value and the source without it, or `none` when no value is available now. -/
def Source.pull : Source → Option (Int × Source)
  | .queue [] => none
  | .queue (v :: vs) => some (v, .queue vs)
  | .callable f n => some (Config.callableValue f n, .callable f (n + 1))

/-- Construction from an image (R23, R180, R182): the whole of the instance's state is new; `src`, `starveFault`
and `moves` stay because they are the host's (log 9). -/
def State.construct (image : Image) (s : State) : State :=
  { State.reset with
    mem := Mem.load [] 0 image, src := s.src, starveFault := s.starveFault, moves := s.moves }

/-- The verification-only read port `Peek(addr)` (R168): reads a cell, changes nothing. -/
def State.peek (s : State) (a : Nat) : Int :=
  s.mem.read a

/-- The numeric codes of the run states (R17). -/
def RunState.code : RunState → Nat
  | .running => 0
  | .awaitingInput => 1
  | .producedOutput => 2
  | .halted => 3
  | .faulted => 4

/-- The numeric codes of the fault causes (R150). -/
def Fault.code : Fault → Nat
  | .invalidOpcode => 1
  | .writeImmediate => 2
  | .invalidMode => 3
  | .addressError => 4
  | .inputStarvation => 5
  | .rangeError => 6
  | .capacityError => 7

/-- Whether a cause belongs to the class DecodeError (R150). -/
def Fault.isDecodeError : Fault → Bool
  | .invalidOpcode | .writeImmediate | .invalidMode => true
  | .addressError | .inputStarvation | .rangeError | .capacityError => false

/-- The fault record of a decode error: its cause and the opcode word (R150). -/
def decodeFault : DecodeError → FaultRecord
  | .invalidOpcode w => ⟨.invalidOpcode, w⟩
  | .writeImmediate w => ⟨.writeImmediate, w⟩
  | .invalidMode w => ⟨.invalidMode, w⟩

end Sys2Proof.Machine
end

