-- ==== Sys2Proof/Machine/Operands.lean ====
section
/-!
DEFINITION. The operand resolver (spec 40_execution_cycle.md R74, R75, R76). The relative base it uses is the one
at the start of the step; sums are exact (R80).
-/
namespace Sys2Proof.Machine

/-- The address a read parameter resolves to (R55): none for an immediate. -/
def srcAddr (s : State) : Src → Option Int
  | .position p => some p
  | .immediate _ => none
  | .relative p => some (s.rb + p)

/-- The address a write parameter resolves to (R55). -/
def dstAddr (s : State) : Dst → Int
  | .position p => p
  | .relative p => s.rb + p

/-- The checks of a resolved address: in a variant of finite width the value must fit (R83), then the address
must exist (R34, R48). -/
def resolve (c : Variant) (s : State) (x : Int) : Except FaultRecord Nat := do
  let x ← checkRange c s x
  checkAddr c x

/-- `ReadOperand(m, p)` (R74). -/
def readOperand (c : Variant) (s : State) (a : Src) : Except FaultRecord Int :=
  match srcAddr s a with
  | none => .ok a.word
  | some x => do
    let n ← resolve c s x
    .ok (s.mem.read n)

/-- `WriteAddr(m, p)` (R75): the address only; the cell is not read. DESIGN CHOICE (log 10): a variant of finite capacity
tests the address here, before the access that R48 speaks of. -/
def writeAddr (c : Variant) (s : State) (d : Dst) : Except FaultRecord Nat :=
  resolve c s (dstAddr s d)

end Sys2Proof.Machine
end

