-- ==== Sys2Proof/Machine/Arithmetic.lean ====
section
/-!
DEFINITION. ADD and MUL (spec 41_arithmetic.md R90, R91), over one shared operation for the instructions that read
two parameters and write one; LT and EQ use it too.
-/
namespace Sys2Proof.Machine

/-- Phases S4 to S6 of a `P3W` instruction (R70): the read operands in order, the write address, then the one
write and the advance by 4 (R78). All checks come before the write (R79). -/
def computeWith (c : Variant) (f : Int → Int → Int) (a b : Src) (d : Dst) (s : State) :
    Except FaultRecord State := do
  let x ← readOperand c s a
  let y ← readOperand c s b
  let dst ← writeAddr c s d
  let v ← checkRange c s (f x y)
  let next ← pcPlus c s 4
  .ok ((s.store dst v).setPc next)

/-- ADD in any variant (R90, R83). -/
def addWith (c : Variant) (a b : Src) (d : Dst) (s : State) : Except FaultRecord State :=
  computeWith c (fun x y => x + y) a b d s

/-- MUL in any variant (R91, R83). -/
def mulWith (c : Variant) (a b : Src) (d : Dst) (s : State) : Except FaultRecord State :=
  computeWith c (fun x y => x * y) a b d s

/-- ADD (R90): `M[dst] <- a + b`, exact. -/
def execAdd (a b : Src) (d : Dst) (s : State) : Host.Outcome State Fault Refusal :=
  settle s (addWith Config.spec a b d s)

/-- MUL (R91): `M[dst] <- a * b`, exact. -/
def execMul (a b : Src) (d : Dst) (s : State) : Host.Outcome State Fault Refusal :=
  settle s (mulWith Config.spec a b d s)

end Sys2Proof.Machine
end

