-- ==== Sys2Proof/Machine/Flags.lean ====
section
/-!
DEFINITION. The machine has no flags, condition codes or predicate registers (spec 10_state.md R16). What stands in
their place: the integer a comparison writes to memory, and the zero tests of the conditional jumps (R81).
-/
namespace Sys2Proof.Machine

/-- The result of a comparison as a cell: 1 for true, 0 for false (R81, R105, R106). -/
def truth (b : Bool) : Int :=
  if b then 1 else 0

/-- LT's comparison: the mathematical order (R81). -/
def lessThan (a b : Int) : Bool :=
  decide (a < b)

/-- EQ's comparison: the same integer (R81). -/
def equals (a b : Int) : Bool :=
  decide (a = b)

/-- JNZ's test: any non-zero value, negative included (R81, R100). -/
def isNonZero (a : Int) : Bool :=
  decide (a ≠ 0)

/-- JZ's test: exactly the integer 0 (R81, R101). -/
def isZero (a : Int) : Bool :=
  decide (a = 0)

end Sys2Proof.Machine
end

