-- ==== Sys2Proof/Machine/Compare.lean ====
section
/-!
DEFINITION. LT and EQ (spec 44_compare.md R105, R106): the result is the integer 1 or 0 in memory.
-/
namespace Sys2Proof.Machine

/-- LT in any variant (R105). -/
def ltWith (c : Variant) (a b : Src) (d : Dst) (s : State) : Except FaultRecord State :=
  computeWith c (fun x y => truth (lessThan x y)) a b d s

/-- EQ in any variant (R106). -/
def eqWith (c : Variant) (a b : Src) (d : Dst) (s : State) : Except FaultRecord State :=
  computeWith c (fun x y => truth (equals x y)) a b d s

/-- LT (R105): `M[dst] <- 1 if a < b else 0`. -/
def execLt (a b : Src) (d : Dst) (s : State) : Host.Outcome State Fault Refusal :=
  settle s (ltWith Config.spec a b d s)

/-- EQ (R106): `M[dst] <- 1 if a = b else 0`. -/
def execEq (a b : Src) (d : Dst) (s : State) : Host.Outcome State Fault Refusal :=
  settle s (eqWith Config.spec a b d s)

end Sys2Proof.Machine
end

