-- ==== Sys2Proof/Machine/Halt.lean ====
section
/-!
DEFINITION. HLT (spec 46_halt.md R115).
-/
namespace Sys2Proof.Machine

/-- The effect of HLT: the advance to `next` and the terminal state. -/
def State.halt (next : Nat) (s : State) : State :=
  { s.setPc next with runState := .halted }

/-- HLT in any variant (R115, R83): the advance is by 1 (90_conflicts.md C8). -/
def haltWith (c : Variant) (s : State) : Except FaultRecord State := do
  let next ← pcPlus c s 1
  .ok (s.halt next)

/-- HLT (R115). It has no operand and no fault of its own. -/
def execHlt (s : State) : Host.Outcome State Fault Refusal :=
  settle s (haltWith Config.spec s)

end Sys2Proof.Machine
end

