-- ==== Sys2Proof/Machine/InputOutput.lean ====
section
/-!
DEFINITION. IN and OUT (spec 42_io.md R95, R96), the only suspend points.
-/
namespace Sys2Proof.Machine

/-- IN in any variant (R95, R83): the address check first, `Pull` last, so a faulting IN consumes nothing. DESIGN CHOICE
(log 10): in a variant of finite capacity the check of the destination includes `MEM_CAP`, so an IN to a cell above it is
a `CapacityError` also where it finds no input and would make no access (R48). -/
def inWith (c : Variant) (d : Dst) (s : State) : Except FaultRecord State := do
  let dst ← writeAddr c s d
  match s.src.pull with
  | some (v, rest) =>
    let v ← checkRange c s v
    let next ← pcPlus c s 2
    .ok { (s.store dst v).setPc next with src := rest }
  | none =>
    if s.starveFault then .error ⟨.inputStarvation, s.pc⟩
    else .ok { s with runState := .awaitingInput }

/-- OUT in any variant (R96, R83). -/
def outWith (c : Variant) (a : Src) (s : State) : Except FaultRecord State := do
  let x ← readOperand c s a
  let next ← pcPlus c s 2
  .ok { s.setPc next with out := some x, runState := .producedOutput }

/-- IN (R95): stores one input, or suspends, or faults with `InputStarvation(pc)`. -/
def execIn (d : Dst) (s : State) : Host.Outcome State Fault Refusal :=
  settle s (inWith Config.spec d s)

/-- OUT (R96): latches the operand and suspends past the instruction. -/
def execOut (a : Src) (s : State) : Host.Outcome State Fault Refusal :=
  settle s (outWith Config.spec a s)

end Sys2Proof.Machine
end

