-- ==== Sys2Proof/Machine/Jumps.lean ====
section
/-!
DEFINITION. JNZ and JZ (spec 43_jumps.md R100, R101). Both operands are resolved whether or not the jump is taken
(R76); a taken jump to a negative target faults at the jump (D9).
-/
namespace Sys2Proof.Machine

/-- The target of a taken jump: any non-negative integer is a legal `pc` (R14, R100). -/
def checkTarget (b : Int) : Except FaultRecord Nat :=
  if b < 0 then .error ⟨.addressError, b⟩ else .ok b.toNat

/-- Phases S4 and S6 of a conditional jump (R70, R100, R101): `taken` is its test. -/
def jumpWith (c : Variant) (taken : Int → Bool) (a b : Src) (s : State) : Except FaultRecord State := do
  let x ← readOperand c s a
  let y ← readOperand c s b
  if taken x then
    let target ← checkTarget y
    .ok (s.setPc target)
  else
    let next ← pcPlus c s 3
    .ok (s.setPc next)

/-- JNZ in any variant (R100). -/
def jnzWith (c : Variant) (a b : Src) (s : State) : Except FaultRecord State :=
  jumpWith c isNonZero a b s

/-- JZ in any variant (R101). -/
def jzWith (c : Variant) (a b : Src) (s : State) : Except FaultRecord State :=
  jumpWith c isZero a b s

/-- JNZ (R100): jumps to `b` when `a` is not 0. -/
def execJnz (a b : Src) (s : State) : Host.Outcome State Fault Refusal :=
  settle s (jnzWith Config.spec a b s)

/-- JZ (R101): jumps to `b` when `a` is 0. -/
def execJz (a b : Src) (s : State) : Host.Outcome State Fault Refusal :=
  settle s (jzWith Config.spec a b s)

end Sys2Proof.Machine
end

