-- ==== Sys2Proof/Machine/RelBase.lean ====
section
/-!
DEFINITION. ARB (spec 45_relbase.md R110), the only instruction that writes the relative base.
-/
namespace Sys2Proof.Machine

/-- ARB in any variant (R110, R83): the operand is read with the old base. -/
def arbWith (c : Variant) (a : Src) (s : State) : Except FaultRecord State := do
  let x ← readOperand c s a
  let v ← checkRange c s (s.rb + x)
  let next ← pcPlus c s 2
  .ok { s.setPc next with rb := v }

/-- ARB (R110): `rb <- rb + a`; a negative base is legal. -/
def execArb (a : Src) (s : State) : Host.Outcome State Fault Refusal :=
  settle s (arbWith Config.spec a s)

end Sys2Proof.Machine
end

