-- ==== Sys2Proof/Machine/Fetch.lean ====
section
/-!
DEFINITION. Phases S1 to S3 of the step (spec 40_execution_cycle.md R70 to R73): the opcode word at `pc`, its
decoding, and the parameter words after it, all read as memory is now (R45).
-/
namespace Sys2Proof.Machine

/-- Parameter word `i` of a decoded opcode word (R73); a word beyond the arity is not fetched. In a variant of finite
width its address must fit (R83). -/
def fetchParam (c : Variant) (s : State) (h : Header) (i : Nat) : Except FaultRecord Int :=
  if i ≤ h.arity then do
    let a ← pcPlus c s i
    fetchCell c s a
  else .ok 0

/-- Phase S2 (R72): the header, or the fault of a word that does not decode. -/
def decodeStep (c : Variant) (w : Int) : Except FaultRecord Header :=
  match decodeWord c w with
  | .ok h => .ok h
  | .error e => .error (decodeFault e)

/-- Phases S1 to S3: the instruction at `pc`, or the fault the step raises instead. -/
def fetchWith (c : Variant) (s : State) : Except FaultRecord Instr := do
  let w ← fetchCell c s s.pc
  let h ← decodeStep c w
  let p1 ← fetchParam c s h 1
  let p2 ← fetchParam c s h 2
  let p3 ← fetchParam c s h 3
  .ok (h.instr p1 p2 p3)

/-- Phases S1 to S3 with the spec's parameters (R5). -/
def fetchInstr (s : State) : Except FaultRecord Instr :=
  fetchWith Config.spec s

end Sys2Proof.Machine
end

