-- ==== Sys2Proof/Machine/Cycle.lean ====
section
/-!
DEFINITION. One instruction step inside a transaction (`Step` of spec 40_execution_cycle.md R70), and the host's
moves between transactions (50_suspend_resume.md R121, R122, R125, R136).
-/
namespace Sys2Proof.Machine

/-- `Step(src, starve_fault)` (R70); `src` and `starve_fault` are the state's (R122). -/
def cycle (s : State) : Host.Outcome State Fault Refusal :=
  match fetchInstr s with
  | .error f => .next (s.raise f)
  | .ok i => exec i s

/-- Whether a transaction is in progress: RUNNING after the first Resume (R17, R120). -/
def State.inTransaction (s : State) : Bool :=
  decide (s.runState = .running) && s.started

/-- The start of `Resume` (R122): in a terminal state nothing happens (R128, R129); else the run state becomes
RUNNING and the transaction has this starvation policy. -/
def State.begin (starve : Bool) (s : State) : State :=
  match s.runState with
  | .halted | .faulted => s
  | .running | .awaitingInput | .producedOutput =>
    { s with runState := .running, starveFault := starve, started := true }

/-- The host installs an input source between transactions (R125). -/
def State.install (src : Source) (s : State) : State :=
  { s with src := src }

/-- What one host move does (R136). -/
def HostMove.apply : HostMove → State → State
  | .construct image, s => s.construct image
  | .install src, s => s.install src
  | .resume starve, s => s.begin starve

/-- Between transactions only the host acts: its next move is made, and without one nothing happens (R169,
R181). -/
def hostTurn (s : State) : State :=
  match s.moves with
  | [] => s
  | m :: ms => m.apply { s with moves := ms }

end Sys2Proof.Machine
end

