-- ==== Sys2Proof/Machine/Step.lean ====
section
/-!
DEFINITION. One step of the machine: an instruction inside a transaction, a host move between transactions
(spec 00_scope.md R6).
-/
namespace Sys2Proof.Machine

/-- One step (R6). -/
def step (s : State) : Host.Outcome State Fault Refusal :=
  if s.inTransaction then cycle s else .next (hostTurn s)

/-- The state `s` inside a transaction with the cells `w, 0, 0, 0` at `pc`, so that the very next step fetches the
opcode word `w` with zero parameters (log 4). -/
def State.withFetchWord (s : State) (nbits w : Nat) : State :=
  match nbits with
  | _ => { s with
      mem := Mem.load s.mem s.pc [(w : Int), 0, 0, 0], runState := .running, started := true }

end Sys2Proof.Machine
end

