-- ==== Sys2Proof/Machine/Loader.lean ====
section
/-!
DEFINITION. The program text (spec 30_encoding.md R66, R187): `text = ws* int ("," int)* ws*`, `int = "-"? digit+`.
A scan over the characters in one pass; anything the grammar does not accept is refused and nothing is
constructed.
-/
namespace Sys2Proof.Machine

/-- Where the scan stands in the grammar. -/
inductive ScanState where
  /-- Before the first integer: white space may still come. -/
  | lead
  /-- After a comma: an integer must begin here. -/
  | item
  /-- After a minus sign: a digit must follow. -/
  | minus
  /-- Inside an integer: its sign and its value so far. -/
  | digits (neg : Bool) (n : Nat)
  /-- After the last integer: only white space may follow. -/
  | trail
  deriving DecidableEq, Repr

/-- White space of the grammar: space, tab, carriage return, line feed (R66). -/
def isWs (ch : Char) : Bool :=
  ch == ' ' || ch == '\t' || ch == '\r' || ch == '\n'

/-- The value of a decimal digit. -/
def digitOf (ch : Char) : Option Nat :=
  if 48 ≤ ch.toNat ∧ ch.toNat ≤ 57 then some (ch.toNat - 48) else none

/-- An integer of a sign and a magnitude. -/
def signed (neg : Bool) (n : Nat) : Int :=
  if neg then -(n : Int) else n

/-- One character of the scan: the new place, and the integer it completes, if any; `none` refuses the text. -/
def scanChar (st : ScanState) (ch : Char) : Option (ScanState × Option Int) :=
  match st, digitOf ch with
  | .lead, some d | .item, some d => some (.digits false d, none)
  | .minus, some d => some (.digits true d, none)
  | .digits neg n, some d => some (.digits neg (10 * n + d), none)
  | .trail, some _ => none
  | .lead, none => if isWs ch then some (.lead, none) else if ch = '-' then some (.minus, none) else none
  | .item, none => if ch = '-' then some (.minus, none) else none
  | .minus, none => none
  | .digits neg n, none =>
    if ch = ',' then some (.item, some (signed neg n))
    else if isWs ch then some (.trail, some (signed neg n))
    else none
  | .trail, none => if isWs ch then some (.trail, none) else none

/-- The scan of the rest of a text. -/
def scan : ScanState → List Char → Option (List Int)
  | .digits neg n, [] => some [signed neg n]
  | .trail, [] => some []
  | .lead, [] | .item, [] | .minus, [] => none
  | st, ch :: cs =>
    match scanChar st ch with
    | none => none
    | some (st', none) => scan st' cs
    | some (st', some v) => (scan st' cs).map (v :: ·)

/-- The image a program text stands for, or `none` where the loader refuses it (R66). -/
def loadText (text : List Char) : Option (List Int) :=
  scan .lead text

/-- The image of a program text given as UTF-8 bytes (R66). Every character the grammar accepts is one byte below 128; a
byte from 128 on belongs to no character it accepts, and is refused. -/
def loadBytes (bytes : List (BitVec 8)) : Option (List Int) :=
  loadText (bytes.map fun b => Char.ofNat b.toNat)

/-- Construction from a program text (R187): the core never sees the text; a refused text constructs nothing. -/
def constructFromText (text : List Char) (s : State) : Option State :=
  (loadText text).map s.construct

/-- An integer as the loader reads it: `-` before a negative one, then its decimal digits. -/
def intText (v : Int) : List Char :=
  if v < 0 then '-' :: Nat.toDigits 10 v.natAbs else Nat.toDigits 10 v.natAbs

/-- A program text of an image: its integers separated by commas. -/
def imageText : List Int → List Char
  | [] => []
  | [v] => intText v
  | v :: vs => intText v ++ ',' :: imageText vs

end Sys2Proof.Machine
end

