-- ==== Sys2Proof/Machine/Bounded.lean ====
section
/-!
DEFINITION. The machine with any parameters of R5: finite width (spec 40_execution_cycle.md R83), finite capacity
(20_memory.md R48), strict digits (30_encoding.md R61). A bounded variant faults where the unbounded machine goes on
(60_exceptions.md R156); it never wraps a value or drops an access. With `Config.spec` it is the machine of
Machine/Cycle.lean.
-/
namespace Sys2Proof.Machine

/-- The effect of an instruction in a variant, one call per instruction. -/
def effectWith (c : Variant) (i : Instr) (s : State) : Except FaultRecord State :=
  match i with
  | .add a b d => addWith c a b d s
  | .mul a b d => mulWith c a b d s
  | .inp d => inWith c d s
  | .out a => outWith c a s
  | .jnz a b => jnzWith c a b s
  | .jz a b => jzWith c a b s
  | .lt a b d => ltWith c a b d s
  | .eq a b d => eqWith c a b d s
  | .arb a => arbWith c a s
  | .hlt => haltWith c s

/-- Phases S1 to S6 of a step in a variant (R70, R156): the state after it, or the fault it raises. -/
def outcomeWith (c : Variant) (s : State) : Except FaultRecord State := do
  let i ← fetchWith c s
  effectWith c i s

/-- One instruction step of a variant. -/
def cycleWith (c : Variant) (s : State) : Host.Outcome State Fault Refusal :=
  settle s (outcomeWith c s)

/-- Image load in a variant: cells in order; a cell that does not exist or a value that does not fit stops it
(R48, R83; log 10). `pc` is 0 during construction. -/
def loadWith (c : Variant) (m : Mem) (base : Nat) : Image → Except FaultRecord Mem
  | [] => .ok m
  | v :: vs =>
    if !c.holds base then .error ⟨.capacityError, base⟩
    else if !c.fits v then .error ⟨.rangeError, 0⟩
    else loadWith c (m.write base v) (base + 1) vs

/-- Construction in a variant: an image that does not fit leaves an instance in `FAULTED` (log 10). -/
def constructWith (c : Variant) (image : Image) (s : State) : State :=
  match loadWith c [] 0 image with
  | .ok _ => s.construct image
  | .error f => (s.construct []).raise f

/-- A host move in a variant: only construction can differ. -/
def applyWith (c : Variant) : HostMove → State → State
  | .construct image, s => constructWith c image s
  | .install src, s => s.install src
  | .resume starve, s => s.begin starve

/-- One step of a variant (R6): as `step`, with the variant's parameters. -/
def stepWith (c : Variant) (s : State) : Host.Outcome State Fault Refusal :=
  if s.inTransaction then cycleWith c s
  else
    match s.moves with
    | [] => .next s
    | m :: ms => .next (applyWith c m { s with moves := ms })

end Sys2Proof.Machine
end

