-- ==== Sys2Proof/Machine/Controller.lean ====
section
/-!
DEFINITION. The memory controller as the spec describes its inside (spec 20_memory.md R32 to R37, 10_state.md R21): a
backing store with an extent that grows on demand. The extent is hidden and the machine's State leaves it out, as
R21 allows; here the store stands by itself, so that "growth is transparent" can be stated and proved.
-/
namespace Sys2Proof.Machine

/-- A backing store: cells `0 .. ext-1` exist (R21). -/
structure Store where
  cells : List Int
  deriving DecidableEq, Repr

/-- The extent `ext` (R21). -/
def Store.ext (st : Store) : Nat :=
  st.cells.length

/-- What the store shows at an address: a cell that does not exist reads as one holding 0 (R21, R37). -/
def Store.show (st : Store) (a : Nat) : Int :=
  st.cells.getD a 0

/-- Growth for an access at `a` (R35): nothing when the cell exists, else the extent becomes `a + 1 + slack` and
every new cell holds 0. How far past `a` it grows is free: `slack` is any number. -/
def Store.grow (st : Store) (a : Nat) (slack : Nat) : Store :=
  ⟨st.cells ++ List.replicate (a + 1 + slack - st.ext) 0⟩

/-- Growth on demand: only an access beyond the extent grows the store (R32, R33). -/
def Store.reach (st : Store) (a : Nat) (slack : Nat) : Store :=
  if st.ext ≤ a then st.grow a slack else st

/-- The component's own address check (R32, R33, R34). -/
def Store.check (addr : Int) : Except FaultRecord Nat :=
  if addr < 0 then .error ⟨.addressError, addr⟩ else .ok addr.toNat

/-- `get(addr)`, the pseudocode of R32: the value and the store after the access. -/
def Store.get (st : Store) (addr : Int) (slack : Nat) : Except FaultRecord (Int × Store) := do
  let a ← Store.check addr
  .ok ((st.reach a slack).show a, st.reach a slack)

/-- `set(addr, value)`, the pseudocode of R33: the store after the access. -/
def Store.set (st : Store) (addr : Int) (v : Int) (slack : Nat) : Except FaultRecord Store := do
  let a ← Store.check addr
  .ok ⟨(st.reach a slack).cells.set a v⟩

/-- The store and the machine's sparse memory show the same content at every address. -/
def Store.Shows (st : Store) (m : Mem) : Prop :=
  ∀ a, st.show a = m.read a

end Sys2Proof.Machine
end

