-- ==== Sys2Proof/Machine/Transaction.lean ====
section
/-!
DEFINITION. The transaction as the host calls it (spec 50_suspend_resume.md R122, R123), drain mode (R131, R132), the
end of a run (R141) and several instances side by side (R49, R139, R167). A transaction need not end (R134): the
functions here run under fuel and answer `none`, "still running", when it is used up.
-/
namespace Sys2Proof.Machine

/-- The four reports of a transaction (R123). -/
inductive Report where
  | output (v : Int)
  | needInput
  | halted
  | fault (f : FaultRecord)
  deriving DecidableEq, Repr

/-- What the host reads in a state that is not RUNNING (R122, R17): the last lines of `Resume`. -/
def State.report (s : State) : Option Report :=
  match s.runState with
  | .running => none
  | .awaitingInput => some .needInput
  | .producedOutput => s.out.map .output
  | .halted => some .halted
  | .faulted => s.fault.map .fault

/-- `while state = RUNNING: Step` (R122), at most `fuel` steps. -/
def runCycles : Nat → State → Option State
  | 0, s => if s.runState = .running then none else some s
  | n + 1, s =>
    if s.runState = .running then
      match cycle s with
      | .next t => runCycles n t
      | .fault _ => none
      | .refused _ => none
    else some s

/-- `n` steps of the machine (R6), one after another. -/
def steps : Nat → State → Host.Outcome State Fault Refusal
  | 0, s => .next s
  | n + 1, s =>
    match step s with
    | .next t => steps n t
    | .fault f => .fault f
    | .refused r => .refused r

/-- `Resume(src, starve_fault)` (R122): the report, and the state the transaction leaves; what remains of the
source is in that state. In a terminal state nothing happens (R128, R129). -/
def resume (fuel : Nat) (src : Source) (starve : Bool) (s : State) : Option (Report × State) :=
  match s.runState with
  | .halted | .faulted => s.report.map fun r => (r, s)
  | .running | .awaitingInput | .producedOutput =>
    (runCycles fuel ((s.install src).begin starve)).bind fun t => t.report.map fun r => (r, t)

/-- The loop of `Run` (R131): at most `n` transactions of at most `fuel` steps each; `outs` are the outputs so
far, in emission order. The source of a transaction is what the one before left of the queue. -/
def drain (fuel : Nat) : Nat → Source → List Int → State → Option (Report × List Int × State)
  | 0, _, _, _ => none
  | n + 1, src, outs, s =>
    match resume fuel src true s with
    | none => none
    | some (.output v, t) => drain fuel n t.src (outs ++ [v]) t
    | some (r, t) => some (r, outs, t)

/-- `Run(inputs)` (R131): the final report, the outputs emitted (also before a fault, R132), the state left. -/
def run (fuel n : Nat) (inputs : List Int) (s : State) : Option (Report × List Int × State) :=
  drain fuel n (.queue inputs) [] s

/-- The end of a run of an instance (R141). -/
def State.runOver (s : State) : Bool :=
  decide (s.runState = .halted) || decide (s.runState = .faulted)

/-- Several instances side by side (R167): each has a whole state of its own, nothing is shared (R49). -/
abbrev Instances := List State

/-- Instance `k` makes one step of its own; what passes between instances is the host's to route (R139). -/
def Instances.stepAt (sys : Instances) (k : Nat) : Instances :=
  match sys[k]? with
  | none => sys
  | some s =>
    match step s with
    | .next t => sys.set k t
    | .fault _ => sys
    | .refused _ => sys

end Sys2Proof.Machine
end

