-- ==== Sys2Proof/Safety.lean ====
section
/-!
DEFINITION. The terms that claims about the machine use: operand values and resolved addresses, what a store or a
plain advance leaves unchanged, the cells a step reads, the invariant of a reachable state, and the decoder of R63 as
the spec writes it.
-/
namespace Sys2Proof.Safety

open Sys2Proof.Machine

/-- The value of a read parameter whose address exists (spec R55, R74). -/
def value (s : State) (a : Src) : Int :=
  match srcAddr s a with
  | none => a.word
  | some x => s.mem.read x.toNat

/-- The addresses an instruction resolves, in the order of R76: the read parameters', then the write
parameter's. An immediate resolves to none. -/
def addresses (s : State) (i : Instr) : List Int :=
  i.sources.filterMap (srcAddr s) ++ i.dest.toList.map (dstAddr s)

/-- Every address the instruction resolves exists (R34). -/
def Resolvable (s : State) (i : Instr) : Prop :=
  ∀ x ∈ addresses s i, 0 ≤ x

/-- What no instruction writes: the transaction's policy, the host's moves, the fault record (but by a fault). -/
structure SameHost (s t : State) : Prop where
  starveFault : t.starveFault = s.starveFault
  started : t.started = s.started
  moves : t.moves = s.moves

/-- From `s` to `t` cell `n` got `v`, `pc` advanced by `k`, and nothing else changed. -/
structure Stored (s t : State) (n : Nat) (v : Int) (k : Nat) : Prop extends SameHost s t where
  mem : ∀ b, t.mem.read b = if b = n then v else s.mem.read b
  pc : t.pc = s.pc + k
  rb : t.rb = s.rb
  runState : t.runState = s.runState
  out : t.out = s.out
  fault : t.fault = s.fault
  src : t.src = s.src

/-- The condition under which a jump is taken (R100, R101). -/
def jumpTaken : Instr → State → Bool
  | .jnz a _, s => decide (value s a ≠ 0)
  | .jz a _, s => decide (value s a = 0)
  | _, _ => false

/-- The target of a jump, the value of its second parameter (R100, R101). -/
def jumpTarget : Instr → State → Int
  | .jnz _ b, s | .jz _ b, s => value s b
  | _, _ => 0

/-- The cells an instruction at `pc` reads: its own words and its operand cells (R40, R46). -/
def cellsRead (s : State) (i : Instr) : List Nat :=
  List.range' s.pc i.length ++ (i.sources.filterMap (srcAddr s)).map Int.toNat

/-- The cells a step reads: the opcode word only when it does not decode (R72). -/
def stepReads (s : State) : List Nat :=
  match fetchInstr s with
  | .ok i => cellsRead s i
  | .error _ => [s.pc]

/-- The invariant of a reachable state: memory in canonical form; a fault recorded exactly in FAULTED (R19); an
output latched in PRODUCED_OUTPUT (R18); before the first transaction the state is RUNNING (R120) and no output
has been made (R23). -/
structure Inv (s : State) : Prop where
  mem : s.mem.wf = true
  fault : s.runState = .faulted ↔ s.fault ≠ none
  out : s.runState = .producedOutput → s.out ≠ none
  fresh : s.started = false → s.runState = .running ∧ s.out = none

/-- The table ARITY of R63: opcode, `k`, `wc`. -/
def arityTable : List (Nat × Nat × Nat) :=
  [(1, 3, 1), (2, 3, 1), (3, 1, 1), (4, 1, 0), (5, 2, 0), (6, 2, 0), (7, 3, 1), (8, 3, 1), (9, 1, 0), (99, 0, 0)]

/-- The loop of R63 over the mode digits still to examine: `left` of the `k` digits, from `m_(k - left + 1)`. -/
def specModes (w : Int) (n k wc : Nat) : Nat → Except DecodeError (List Nat)
  | 0 => .ok []
  | left + 1 =>
    let i := k - left
    let m := digit n (i + 1)
    if m > 2 then .error (.invalidMode w)
    else if wc = 1 ∧ i = k ∧ m = 1 then .error (.writeImmediate w)
    else (specModes w n k wc left).map (m :: ·)

/-- `Decode(w)` as R63 writes it: the opcode, `k`, `wc` and the mode digits. -/
def specDecode (w : Int) : Except DecodeError (Nat × Nat × Nat × List Nat) :=
  if w < 0 then .error (.invalidOpcode w)
  else
    let op := (w % 100).toNat
    match arityTable.lookup op with
    | none => .error (.invalidOpcode w)
    | some (k, wc) => (specModes w w.toNat k wc k).map fun ms => (op, k, wc, ms)

/-- What a header says, in the form of R63. -/
def headerTuple : Header → Nat × Nat × Nat × List Nat
  | .add m1 m2 m3 => (1, 3, 1, [m1.digit, m2.digit, m3.digit])
  | .mul m1 m2 m3 => (2, 3, 1, [m1.digit, m2.digit, m3.digit])
  | .inp m1 => (3, 1, 1, [m1.digit])
  | .out m1 => (4, 1, 0, [m1.digit])
  | .jnz m1 m2 => (5, 2, 0, [m1.digit, m2.digit])
  | .jz m1 m2 => (6, 2, 0, [m1.digit, m2.digit])
  | .lt m1 m2 m3 => (7, 3, 1, [m1.digit, m2.digit, m3.digit])
  | .eq m1 m2 m3 => (8, 3, 1, [m1.digit, m2.digit, m3.digit])
  | .arb m1 => (9, 1, 0, [m1.digit])
  | .hlt => (99, 0, 0, [])

/-- An IN that finds no input in drain mode (R95, R155). -/
def starves : Instr → State → Bool
  | .inp _, s => s.src.pull.isNone && s.starveFault
  | _, _ => false

/-- The fault of an instruction, in the order of R158 (4) to (6): the first negative address, read parameters before
the write parameter; a taken jump's negative target; an IN without input in drain mode. -/
def firstInstrFault (s : State) (i : Instr) : Option FaultRecord :=
  match (addresses s i).find? (fun x => decide (x < 0)) with
  | some x => some ⟨.addressError, x⟩
  | none =>
    if jumpTaken i s = true ∧ jumpTarget i s < 0 then some ⟨.addressError, jumpTarget i s⟩
    else if starves i s = true then some ⟨.inputStarvation, s.pc⟩
    else none

/-- The fault of a step, in the order of R158: the decoder's of R63 (1 to 3), else the instruction's (4 to 6). -/
def firstFault (s : State) : Option FaultRecord :=
  match specDecode (s.mem.read s.pc), fetchInstr s with
  | .error e, _ => some (decodeFault e)
  | .ok _, .ok i => firstInstrFault s i
  | .ok _, .error f => some f

/-- A fault only a bounded variant raises (R156): the instance is conformant where it raises none. -/
def BoundedFault (f : FaultRecord) : Prop :=
  f.cause = .rangeError ∨ f.cause = .capacityError

/-- Every cell, the program counter, the relative base and the output of a state fit a variant's width (R83). -/
structure FitsAll (c : Variant) (s : State) : Prop where
  mem : ∀ a, c.fits (s.mem.read a) = true
  pc : c.fits s.pc = true
  rb : c.fits s.rb = true
  out : ∀ v, s.out = some v → c.fits v = true

end Sys2Proof.Safety
end

