-- ==== Sys2Proof/Certificates/Slice0/Obligations.lean ====
section
/-!
DEFINITION. The statements for the provers, each from the spec's rules. OBLIGATIONS.json lists them.
-/

open Sys2Proof Sys2Proof.Machine Sys2Proof.Safety

/-! ## Construction and reset -/

/-- R181, R182: what construction leaves in memory and in every register; nothing runs until the host's first
Resume, which begins fetching at address 0. -/
def Obligations.ConstructionLoadsImage : Prop :=
  ∀ (img : Image) (s : State),
    (∀ i v, img[i]? = some v → (s.construct img).mem.read i = v) ∧
    (∀ i, img.length ≤ i → (s.construct img).mem.read i = 0) ∧
    (s.construct img).pc = 0 ∧ (s.construct img).rb = 0 ∧
    (s.construct img).runState = .running ∧ (s.construct img).out = none ∧ (s.construct img).fault = none ∧
    (s.moves = [] → step (s.construct img) = .next (s.construct img)) ∧
    (∀ b ms, s.moves = .resume b :: ms → ∃ t, step (s.construct img) = .next t ∧ t.inTransaction = true ∧
      t.pc = 0 ∧ t.mem = (s.construct img).mem)

/-- R183: the empty image is legal, its first step faults with `InvalidOpcode(0)` at 0, and the text loader refuses
an empty text. -/
def Obligations.EmptyImageFaultsAtZero : Prop :=
  (∀ (s : State) (a : Nat), (s.construct []).mem.read a = 0) ∧
  (∀ (s : State) (b : Bool), ∃ t, step ((s.construct []).begin b) = .next t ∧
    t.runState = .faulted ∧ t.fault = some ⟨.invalidOpcode, 0⟩ ∧ t.pc = 0) ∧
  loadText [] = none

/-- The reset state meets the invariant that every step keeps (`StepKeepsInvariant`). -/
def Obligations.ResetMeetsInvariant : Prop :=
  Inv Sys2Proof.Machine.State.reset

/-! ## Decoding and encoding -/

/-- Opcode words of 95_test_vectors.md section 2.1, one of each instruction, with what they decode to. -/
def Obligations.SpecWordsDecode : Prop :=
  decodeWord Config.spec 21101 = .ok (.add .immediate .immediate .relative) ∧
  decodeWord Config.spec 1002 = .ok (.mul .position .immediate .position) ∧
  decodeWord Config.spec 203 = .ok (.inp .relative) ∧
  decodeWord Config.spec 104 = .ok (.out .immediate) ∧
  decodeWord Config.spec 2105 = .ok (.jnz .immediate .relative) ∧
  decodeWord Config.spec 2106 = .ok (.jz .immediate .relative) ∧
  decodeWord Config.spec 2107 = .ok (.lt .immediate .relative .position) ∧
  decodeWord Config.spec 20008 = .ok (.eq .position .position .relative) ∧
  decodeWord Config.spec 209 = .ok (.arb .relative) ∧
  decodeWord Config.spec 1099 = .ok .hlt ∧
  decodeWord Config.spec 10301 = .error (.invalidMode 10301) ∧
  decodeWord Config.spec 11107 = .error (.writeImmediate 11107) ∧
  decodeWord Config.spec (-99) = .error (.invalidOpcode (-99))

/-- 30_encoding.md: the cells of an instruction decode to it, whatever stands after them. -/
def Obligations.EncodedInstructionDecodes : Prop :=
  ∀ (i : Instr) (rest : List Int), decode (encode i ++ rest) = .ok (i, rest)

/-- 30_encoding.md: the other direction. A word that decodes is, but for surplus digits, the canonical opcode word
of the instruction it decodes to, and the parameter words are that instruction's. -/
def Obligations.DecodedWordIsCanonical : Prop :=
  ∀ (w : Int) (h : Header) (p1 p2 p3 : Int), decodeWord Config.spec w = .ok h →
    (opcodeWord (h.instr p1 p2 p3) : Int) = w % 10 ^ (h.arity + 2) ∧
    (h.instr p1 p2 p3).arity = h.arity ∧
    (h.instr p1 p2 p3).params = [p1, p2, p3].take h.arity

/-- R63: the decoder is the spec's pseudocode, table and loop, on every integer. -/
def Obligations.DecoderIsPseudocode : Prop :=
  ∀ w : Int, (decodeWord Config.spec w).map headerTuple = specDecode w

/-- R62: exactly which opcode words are legal; every other word is one of the three decode errors. -/
def Obligations.LegalOpcodeWords : Prop :=
  ∀ w : Int,
    ((∃ h, decodeWord Config.spec w = .ok h) ↔
      0 ≤ w ∧ ∃ k wc, arityTable.lookup (w % 100).toNat = some (k, wc) ∧
        (∀ i, 1 ≤ i → i ≤ k → digit w.toNat (i + 1) ≤ 2) ∧
        (wc = 1 → digit w.toNat (k + 1) ≠ 1)) ∧
    (∀ e, decodeWord Config.spec w = .error e →
      e = .invalidOpcode w ∨ e = .invalidMode w ∨ e = .writeImmediate w)

/-- R57, R58: a step whose opcode word is negative, or whose low two digits are no opcode, raises
`InvalidOpcode(w)`; the mode digits do not matter. -/
def Obligations.UnknownOpcodeFaults : Prop :=
  ∀ s : State, s.inTransaction = true →
    (s.mem.read s.pc < 0 ∨ arityTable.lookup (s.mem.read s.pc % 100).toNat = none) →
    step s = .next (s.raise ⟨.invalidOpcode, s.mem.read s.pc⟩)

/-- R59: a belonging mode digit above 2 raises `InvalidMode(w)`, for read and write parameters alike. -/
def Obligations.BadModeDigitFaults : Prop :=
  ∀ (s : State) (k wc i : Nat), s.inTransaction = true → 0 ≤ s.mem.read s.pc →
    arityTable.lookup (s.mem.read s.pc % 100).toNat = some (k, wc) →
    1 ≤ i → i ≤ k → 2 < digit (s.mem.read s.pc).toNat (i + 1) →
    step s = .next (s.raise ⟨.invalidMode, s.mem.read s.pc⟩)

/-- R60: mode digit 1 on the write parameter raises `WriteImmediate(w)` (where no earlier digit is bad, R63), in the
state before the step: nothing was read into it and no input was asked for. -/
def Obligations.ImmediateWriteFaults : Prop :=
  ∀ (s : State) (k : Nat), s.inTransaction = true → 0 ≤ s.mem.read s.pc →
    arityTable.lookup (s.mem.read s.pc % 100).toNat = some (k, 1) →
    (∀ i, 1 ≤ i → i < k → digit (s.mem.read s.pc).toNat (i + 1) ≤ 2) →
    digit (s.mem.read s.pc).toNat (k + 1) = 1 →
    step s = .next (s.raise ⟨.writeImmediate, s.mem.read s.pc⟩)

/-- R61: digits of weight `10^(k+2)` and above have no effect; a variant with STRICT_DIGITS decodes a word that has
none of them as without, and raises `InvalidMode(w)` for a word that has one (where R60 does not already raise
`WriteImmediate(w)` for it); the encoder emits none. -/
def Obligations.SurplusDigitsIgnored : Prop :=
  (∀ (w : Int) (k wc : Nat), 0 ≤ w → arityTable.lookup (w % 100).toNat = some (k, wc) →
    (∀ h, decodeWord Config.spec w = .ok h ↔ decodeWord Config.spec (w % 10 ^ (k + 2)) = .ok h) ∧
    (∀ c : Variant, c.strictDigits = true →
      (w = w % 10 ^ (k + 2) → decodeWord c w = decodeWord Config.spec w) ∧
      (w ≠ w % 10 ^ (k + 2) → decodeWord Config.spec w ≠ .error (.writeImmediate w) →
        decodeWord c w = .error (.invalidMode w)))) ∧
  (∀ i : Instr, opcodeWord i < 10 ^ (i.arity + 2))

/-! ## The step -/

/-- R70, R71 to R73, R77: inside a transaction, a step whose opcode word decodes runs exactly the decoded
instruction, with the parameter words as memory holds them. The step adds nothing around it. -/
def Obligations.StepRunsDecodedInstruction : Prop :=
  ∀ (s : State) (h : Header), s.inTransaction = true →
    decodeWord Config.spec (s.mem.read s.pc) = .ok h →
    step s = exec (h.instr (s.mem.read (s.pc + 1)) (s.mem.read (s.pc + 2)) (s.mem.read (s.pc + 3))) s

/-- 40_execution_cycle.md, 60_exceptions.md: every step answers a next state, in every state; nothing stops the
machine from outside its own states. -/
def Obligations.StepAlwaysAnswers : Prop :=
  ∀ s : State, ∃ t, step s = .next t

/-- R159: what a fault writes, and that the transaction ends and reports it; everything else is as before. -/
def Obligations.FaultEntryIsPrecise : Prop :=
  ∀ (f : FaultRecord) (s : State),
    (s.raise f).fault = some f ∧ (s.raise f).runState = .faulted ∧
    (s.raise f).report = some (.fault f) ∧ (s.raise f).inTransaction = false ∧
    (s.raise f).mem = s.mem ∧ (s.raise f).pc = s.pc ∧ (s.raise f).rb = s.rb ∧ (s.raise f).out = s.out ∧
    (s.raise f).src = s.src ∧ SameHost s (s.raise f)

/-- R74: the operand resolver on a read parameter. -/
def Obligations.ReadOperandByMode : Prop :=
  ∀ (s : State) (p : Int),
    (p < 0 → readOperand Config.spec s (.position p) = .error ⟨.addressError, p⟩) ∧
    (0 ≤ p → readOperand Config.spec s (.position p) = .ok (s.mem.read p.toNat)) ∧
    readOperand Config.spec s (.immediate p) = .ok p ∧
    (s.rb + p < 0 → readOperand Config.spec s (.relative p) = .error ⟨.addressError, s.rb + p⟩) ∧
    (0 ≤ s.rb + p → readOperand Config.spec s (.relative p) = .ok (s.mem.read (s.rb + p).toNat))

/-- R75: the operand resolver on a write parameter. -/
def Obligations.WriteAddressByMode : Prop :=
  ∀ (s : State) (p : Int),
    (p < 0 → writeAddr Config.spec s (.position p) = .error ⟨.addressError, p⟩) ∧
    (0 ≤ p → writeAddr Config.spec s (.position p) = .ok p.toNat) ∧
    (s.rb + p < 0 → writeAddr Config.spec s (.relative p) = .error ⟨.addressError, s.rb + p⟩) ∧
    (0 ≤ s.rb + p → writeAddr Config.spec s (.relative p) = .ok (s.rb + p).toNat)

/-- R76: all parameters are resolved before dispatch, read parameters in order, then the write address: the first
negative address is the one reported, whatever the instruction would have done. -/
def Obligations.FirstNegativeAddressFaults : Prop :=
  ∀ (i : Instr) (s : State) (x : Int), (addresses s i).find? (fun y => decide (y < 0)) = some x →
    exec i s = .next (s.raise ⟨.addressError, x⟩)

/-- R157, R158: a step takes the first fault of the list of R158, if there is one, and does nothing else; if there is
none it does not fault. -/
def Obligations.FaultsOfAStep : Prop :=
  ∀ s t : State, s.inTransaction = true → step s = .next t →
    (∀ f, firstFault s = some f → t = s.raise f) ∧ (firstFault s = none → t.runState ≠ .faulted)

/-- R13: the new `pc` of every instruction: the advance by `1 + k`, the target of a taken jump, no change for an IN
without input and for any step that faults. -/
def Obligations.PcOfEveryInstruction : Prop :=
  (∀ (i : Instr) (s : State), Resolvable s i → (jumpTaken i s = true → 0 ≤ jumpTarget i s) →
    (∀ d, i = .inp d → s.src.pull ≠ none) →
    ∃ t, exec i s = .next t ∧
      t.pc = if jumpTaken i s = true then (jumpTarget i s).toNat else s.pc + (1 + i.arity)) ∧
  (∀ (d : Dst) (s t : State), s.src.pull = none → exec (.inp d) s = .next t → t.pc = s.pc) ∧
  (∀ s t : State, s.inTransaction = true → step s = .next t → t.runState = .faulted → t.pc = s.pc)

/-- R79: a step completes with the effect of its arm, or it raises a fault and does nothing else, or it is an IN that
finds no input and only waits. -/
def Obligations.StepIsAllOrNothing : Prop :=
  ∀ (i : Instr) (s : State),
    (∃ f, exec i s = .next (s.raise f)) ∨
    (∃ d, i = .inp d ∧ s.src.pull = none ∧ exec i s = .next { s with runState := .awaitingInput }) ∨
    (Resolvable s i ∧ ∃ t, exec i s = .next t ∧ t.fault = s.fault ∧
      t.pc = if jumpTaken i s = true then (jumpTarget i s).toNat else s.pc + i.length)

/-- The frame of every instruction (10_state.md section 10; 41 to 46): memory changes only in the cell the write
parameter addresses, `rb` only in ARB, `out` only in OUT, the source only in IN, the run state only in IN, OUT, HLT
and by a fault, the fault record only by a fault, which changes nothing else; the rest never. -/
def Obligations.InstructionFrame : Prop :=
  ∀ (i : Instr) (s t : State), exec i s = .next t →
    (∀ b : Nat, (∀ d, i.dest = some d → dstAddr s d ≠ (b : Int)) → t.mem.read b = s.mem.read b) ∧
    ((∀ a, i ≠ .arb a) → t.rb = s.rb) ∧
    ((∀ a, i ≠ .out a) → t.out = s.out) ∧
    ((∀ d, i ≠ .inp d) → t.src = s.src) ∧
    ((∀ d, i ≠ .inp d) → (∀ a, i ≠ .out a) → i ≠ .hlt → t.runState = s.runState ∨ ∃ f, t = s.raise f) ∧
    (t.fault ≠ s.fault → ∃ f, t = s.raise f) ∧
    SameHost s t

/-- R40: an instruction reads between 1 and 6 cells, its own words included; it has at most one write parameter, and
the cell that parameter addresses is the only one it can change. -/
def Obligations.AccessCounts : Prop :=
  ∀ (i : Instr) (s : State),
    1 ≤ (cellsRead s i).length ∧ (cellsRead s i).length ≤ 6 ∧
    (∀ t b b', exec i s = .next t → t.mem.read b ≠ s.mem.read b → t.mem.read b' ≠ s.mem.read b' → b = b')

/-! ## The instructions: what each does where it completes -/

/-- ADD (41_arithmetic.md): the exact sum is stored, `pc` advances by 4, nothing else changes. -/
def Obligations.AddStoresSum : Prop :=
  ∀ (a b : Src) (d : Dst) (s : State), Resolvable s (.add a b d) →
    ∃ t, exec (.add a b d) s = .next t ∧ Stored s t (dstAddr s d).toNat (value s a + value s b) 4

/-- MUL (41_arithmetic.md): the exact product is stored, `pc` advances by 4, nothing else changes. -/
def Obligations.MulStoresProduct : Prop :=
  ∀ (a b : Src) (d : Dst) (s : State), Resolvable s (.mul a b d) →
    ∃ t, exec (.mul a b d) s = .next t ∧ Stored s t (dstAddr s d).toNat (value s a * value s b) 4

/-- LT (44_compare.md): exactly 1 or 0 is stored by the signed order, `pc` advances by 4, nothing else changes. -/
def Obligations.LtStoresTruth : Prop :=
  ∀ (a b : Src) (d : Dst) (s : State), Resolvable s (.lt a b d) →
    ∃ t, exec (.lt a b d) s = .next t ∧
      Stored s t (dstAddr s d).toNat (if value s a < value s b then 1 else 0) 4

/-- EQ (44_compare.md): exactly 1 or 0 is stored by equality of the integers, `pc` advances by 4, nothing else
changes. -/
def Obligations.EqStoresTruth : Prop :=
  ∀ (a b : Src) (d : Dst) (s : State), Resolvable s (.eq a b d) →
    ∃ t, exec (.eq a b d) s = .next t ∧
      Stored s t (dstAddr s d).toNat (if value s a = value s b then 1 else 0) 4

/-- IN with input (42_io.md): one value leaves the source and is stored unchanged, `pc` advances by 2, nothing else
changes. -/
def Obligations.InStoresInput : Prop :=
  ∀ (d : Dst) (s : State) (v : Int) (rest : Source), Resolvable s (.inp d) → s.src.pull = some (v, rest) →
    ∃ t, exec (.inp d) s = .next t ∧ t.src = rest ∧ Stored s { t with src := s.src } (dstAddr s d).toNat v 2

/-- IN without input (42_io.md): interactive, only the run state changes; in drain mode, `InputStarvation(pc)`. -/
def Obligations.InWithoutInput : Prop :=
  ∀ (d : Dst) (s : State), Resolvable s (.inp d) → s.src.pull = none →
    (s.starveFault = false → exec (.inp d) s = .next { s with runState := .awaitingInput }) ∧
    (s.starveFault = true → exec (.inp d) s = .next (s.raise ⟨.inputStarvation, s.pc⟩))

/-- `Pull` (50_suspend_resume.md section 3): a queue gives its head and drops it, an empty queue answers none, a
callable always has a value. -/
def Obligations.PullTakesOneValue : Prop :=
  (∀ v vs, Source.pull (.queue (v :: vs)) = some (v, .queue vs)) ∧
  Source.pull (.queue []) = none ∧
  (∀ f n, ∃ v, Source.pull (.callable f n) = some (v, .callable f (n + 1)))

/-- OUT (42_io.md): the value is latched, `pc` is past the instruction, the transaction ends and reports the value;
nothing else changes. -/
def Obligations.OutEmitsValue : Prop :=
  ∀ (a : Src) (s : State), Resolvable s (.out a) →
    exec (.out a) s = .next { s with out := some (value s a), pc := s.pc + 2, runState := .producedOutput } ∧
    State.report { s with out := some (value s a), pc := s.pc + 2, runState := .producedOutput } =
      some (.output (value s a))

/-- JNZ (43_jumps.md): taken on any non-zero value; the target is absolute, and negative it faults at the jump; not
taken, a negative target is harmless. -/
def Obligations.JnzJumps : Prop :=
  ∀ (a b : Src) (s : State), Resolvable s (.jnz a b) →
    (value s a ≠ 0 → 0 ≤ value s b → exec (.jnz a b) s = .next { s with pc := (value s b).toNat }) ∧
    (value s a ≠ 0 → value s b < 0 → exec (.jnz a b) s = .next (s.raise ⟨.addressError, value s b⟩)) ∧
    (value s a = 0 → exec (.jnz a b) s = .next { s with pc := s.pc + 3 })

/-- JZ (43_jumps.md): as JNZ with the condition inverted. -/
def Obligations.JzJumps : Prop :=
  ∀ (a b : Src) (s : State), Resolvable s (.jz a b) →
    (value s a = 0 → 0 ≤ value s b → exec (.jz a b) s = .next { s with pc := (value s b).toNat }) ∧
    (value s a = 0 → value s b < 0 → exec (.jz a b) s = .next (s.raise ⟨.addressError, value s b⟩)) ∧
    (value s a ≠ 0 → exec (.jz a b) s = .next { s with pc := s.pc + 3 })

/-- ARB (45_relbase.md): the operand, read with the old base, is added to it; `pc` advances by 2; nothing else
changes. -/
def Obligations.ArbAddsToBase : Prop :=
  ∀ (a : Src) (s : State), Resolvable s (.arb a) →
    exec (.arb a) s = .next { s with rb := s.rb + value s a, pc := s.pc + 2 }

/-- HLT (46_halt.md): `pc` advances by 1, the instance is halted and reports it; nothing else changes. -/
def Obligations.HltHalts : Prop :=
  ∀ s : State, exec .hlt s = .next { s with pc := s.pc + 1, runState := .halted } ∧
    State.report { s with pc := s.pc + 1, runState := .halted } = some .halted

/-- R65: the common idioms do what the spec says of them: unconditional jumps, a move (two forms), a subtraction of a
constant, a negation. -/
def Obligations.PseudoInstructionIdioms : Prop :=
  (∀ (s : State) (t : Nat), exec (.jnz (.immediate 1) (.immediate t)) s = .next { s with pc := t }) ∧
  (∀ (s : State) (t : Nat), exec (.jz (.immediate 0) (.immediate t)) s = .next { s with pc := t }) ∧
  (∀ (s : State) (a : Src) (d : Dst) (k : Int), Resolvable s (.add a (.immediate 0) d) →
    (∃ t, exec (.add a (.immediate 0) d) s = .next t ∧ Stored s t (dstAddr s d).toNat (value s a) 4) ∧
    (∃ t, exec (.mul a (.immediate 1) d) s = .next t ∧ Stored s t (dstAddr s d).toNat (value s a) 4) ∧
    (∃ t, exec (.add a (.immediate (-k)) d) s = .next t ∧ Stored s t (dstAddr s d).toNat (value s a - k) 4) ∧
    (∃ t, exec (.mul a (.immediate (-1)) d) s = .next t ∧ Stored s t (dstAddr s d).toNat (-value s a) 4))

/-- 40_execution_cycle.md section 4 (aliasing): sources are read before the destination is written, so with all three
parameters on one cell ADD doubles it, MUL squares it, LT writes 0 and EQ writes 1, also on a cell of the instruction
itself. -/
def Obligations.AliasedOperandsReadFirst : Prop :=
  ∀ (s : State) (n : Nat),
    (∃ t, exec (.add (.position n) (.position n) (.position n)) s = .next t ∧ Stored s t n (2 * s.mem.read n) 4) ∧
    (∃ t, exec (.mul (.position n) (.position n) (.position n)) s = .next t ∧
      Stored s t n (s.mem.read n * s.mem.read n) 4) ∧
    (∃ t, exec (.lt (.position n) (.position n) (.position n)) s = .next t ∧ Stored s t n 0 4) ∧
    (∃ t, exec (.eq (.position n) (.position n) (.position n)) s = .next t ∧ Stored s t n 1 4)

/-- 20_memory.md section 6 (fetch coherence): an ADD that writes the very next opcode word changes what the next step
decodes and runs. -/
def Obligations.StoreSeenByNextFetch : Prop :=
  ∀ (a b : Src) (d : Dst) (s : State) (h : Header), s.inTransaction = true → Resolvable s (.add a b d) →
    dstAddr s d = (s.pc + 4 : Nat) → decodeWord Config.spec (value s a + value s b) = .ok h →
    ∃ t, exec (.add a b d) s = .next t ∧ step t =
      exec (h.instr (s.mem.read (s.pc + 5)) (s.mem.read (s.pc + 6)) (s.mem.read (s.pc + 7))) t

/-! ## The whole machine -/

/-- The invariant is kept by every step from every state that meets it. -/
def Obligations.StepKeepsInvariant : Prop :=
  ∀ s t : State, Inv s → Sys2Proof.Machine.step s = .next t → Inv t

/-- 50_suspend_resume.md section 1: the only events that change the run state: inside a transaction OUT, HLT, an
interactive IN without input, and a fault; between transactions a construction, and a Resume of a suspended
instance. -/
def Obligations.RunStateChangesOnlyByListedEvents : Prop :=
  ∀ s t : State, step s = .next t → t.runState ≠ s.runState →
    (s.inTransaction = true ∧
      ((∃ f, t = s.raise f) ∨
       (∃ a, fetchInstr s = .ok (.out a) ∧ t.runState = .producedOutput) ∨
       (fetchInstr s = .ok .hlt ∧ t.runState = .halted) ∨
       (∃ d, fetchInstr s = .ok (.inp d) ∧ s.src.pull = none ∧ s.starveFault = false ∧
         t = { s with runState := .awaitingInput }))) ∨
    (s.inTransaction = false ∧ t.runState = .running ∧
      ((∃ img ms, s.moves = .construct img :: ms) ∨
       (∃ b ms, s.moves = .resume b :: ms ∧ (s.runState = .awaitingInput ∨ s.runState = .producedOutput))))

/-- A step depends on memory only through the cells it reads: two states that agree on those cells and on everything
else answer states that agree on everything else, and each cell is in both written alike or in both left as it was
(20_memory.md sections 4 and 6). -/
def Obligations.StepDependsOnlyOnCellsRead : Prop :=
  ∀ (s : State) (m : Mem), (∀ a ∈ stepReads s, m.read a = s.mem.read a) →
    ∃ t u, cycle s = .next t ∧ cycle { s with mem := m } = .next u ∧
      u = { t with mem := u.mem } ∧
      ∀ b, u.mem.read b = t.mem.read b ∨ (t.mem.read b = s.mem.read b ∧ u.mem.read b = m.read b)

/-- Determinism (50_suspend_resume.md section 6): a step is a function of memory, `pc`, `rb`, the run state, the
source and the policy; the old output, the host's pending moves and an old fault record enter into nothing, and the
report is the same. -/
def Obligations.StepIgnoresOutputAndHost : Prop :=
  ∀ s s' : State, s.inTransaction = true → s'.inTransaction = true →
    s'.mem = s.mem → s'.pc = s.pc → s'.rb = s.rb → s'.src = s.src → s'.starveFault = s.starveFault →
    ∃ t t', step s = .next t ∧ step s' = .next t' ∧
      t'.mem = t.mem ∧ t'.pc = t.pc ∧ t'.rb = t.rb ∧ t'.src = t.src ∧ t'.runState = t.runState ∧
      t'.report = t.report

/-! ## Transactions -/

/-- R128, R129: a Resume of a halted or faulted instance runs nothing, changes nothing and reports the halt or the
recorded fault again. -/
def Obligations.TerminalResumeIsNoOp : Prop :=
  ∀ (fuel : Nat) (src : Source) (b : Bool) (s : State),
    (s.runState = .halted → resume fuel src b s = some (.halted, s)) ∧
    (∀ f, s.runState = .faulted → s.fault = some f → resume fuel src b s = some (.fault f, s))

/-- 50_suspend_resume.md section 7, in the model's form of the host's moves (log 2): between transactions a step makes
the host's next move, and without one changes nothing: a construction, a source installed, a Resume that opens a
transaction on a live instance and is only used up on a terminal one. -/
def Obligations.HostMovesBetweenTransactions : Prop :=
  ∀ (s : State), s.inTransaction = false →
    (s.moves = [] → step s = .next s) ∧
    (∀ img ms, s.moves = .construct img :: ms → step s = .next { s.construct img with moves := ms }) ∧
    (∀ src ms, s.moves = .install src :: ms → step s = .next { s with src := src, moves := ms }) ∧
    (∀ b ms, s.moves = .resume b :: ms → s.runState ≠ .halted → s.runState ≠ .faulted →
      step s = .next { s with runState := .running, starveFault := b, started := true, moves := ms }) ∧
    (∀ b ms, s.moves = .resume b :: ms → s.runState = .halted ∨ s.runState = .faulted →
      step s = .next { s with moves := ms })

/-- 50_suspend_resume.md section 4: an IN that still finds no input is stepped again with no effect and reports
NeedInput again, any number of times. -/
def Obligations.AwaitingInputRetries : Prop :=
  ∀ (fuel : Nat) (s : State) (d : Dst), s.runState = .awaitingInput → fetchInstr s = .ok (.inp d) →
    Resolvable s (.inp d) → s.src = .queue [] → s.starveFault = false → s.started = true →
    resume (fuel + 1) (.queue []) false s = some (.needInput, s)

/-- More fuel changes no report: a transaction that ended has one result (50_suspend_resume.md section 6). -/
def Obligations.MoreFuelSameReport : Prop :=
  ∀ (n k : Nat) (src : Source) (b : Bool) (s : State) (r : Report × State),
    resume n src b s = some r → resume (n + k) src b s = some r

/-- The transaction the host calls and the machine's own steps are the same: with the source installed and the
transaction opened by host moves, stepping reaches the state that `resume` answers (50_suspend_resume.md section 2). -/
def Obligations.ResumeIsStepping : Prop :=
  ∀ (fuel : Nat) (src : Source) (b : Bool) (s t : State) (r : Report) (ms : List HostMove),
    s.inTransaction = false → s.runState ≠ .halted → s.runState ≠ .faulted →
    resume fuel src b s = some (r, t) →
    ∃ k, steps k { s with moves := .install src :: .resume b :: ms } = .next { t with moves := ms }

/-- 50_suspend_resume.md section 2: a transaction ends where the state has left RUNNING, and its report is what that
state says; under the starvation policy of drain mode it is never NeedInput. -/
def Obligations.ResumeReportsItsState : Prop :=
  ∀ (fuel : Nat) (src : Source) (b : Bool) (s t : State) (r : Report), resume fuel src b s = some (r, t) →
    t.runState ≠ .running ∧ t.report = some r ∧ (b = true → r ≠ .needInput)

/-- Drain mode (50_suspend_resume.md section 5): `Run` ends only with the report of a halt or a fault, in an instance
whose run is over (section 6); it never reports NeedInput. -/
def Obligations.DrainEndsHaltedOrFaulted : Prop :=
  ∀ (fuel n : Nat) (inputs : List Int) (s t : State) (r : Report) (outs : List Int),
    run fuel n inputs s = some (r, outs, t) →
    t.runOver = true ∧ ((r = .halted ∧ t.runState = .halted) ∨ ∃ f, r = .fault f ∧ t.fault = some f)

/-- Drain mode (50_suspend_resume.md section 5): the outputs of `Run` are those its transactions report, one each, in
emission order, also when it ends in a fault. -/
def Obligations.DrainCollectsOutputsInOrder : Prop :=
  (∀ (fuel n : Nat) (src : Source) (outs : List Int) (s : State),
    drain fuel n src outs s = (drain fuel n src [] s).map fun x => (x.1, outs ++ x.2.1, x.2.2)) ∧
  (∀ (fuel n : Nat) (src : Source) (s t : State) (v : Int), resume fuel src true s = some (.output v, t) →
    drain fuel (n + 1) src [] s = (drain fuel n t.src [] t).map fun x => (x.1, v :: x.2.1, x.2.2)) ∧
  (∀ (fuel n : Nat) (src : Source) (s t : State) (r : Report), resume fuel src true s = some (r, t) →
    (∀ v, r ≠ .output v) → drain fuel (n + 1) src [] s = some (r, [], t))

/-- R49: a step of one instance leaves every other instance as it is. -/
def Obligations.InstancesAreIsolated : Prop :=
  ∀ (sys : Instances) (j k : Nat), j ≠ k → (sys.stepAt k)[j]? = sys[j]?

/-! ## The memory controller and the bounded variants -/

/-- R32, R33: `get` answers what memory shows (0 in a cell that was never there) and changes nothing that shows;
after `set` the cell shows the value and every other cell is unchanged; both make the cell exist; a negative address
is `AddressError`. A store that shows a memory of the machine still shows the memory after it, whatever the extent and
however far it grows. -/
def Obligations.GrowingStoreShowsMemory : Prop :=
  ∀ (st : Store) (m : Mem) (addr v : Int) (slack : Nat), st.Shows m →
    (addr < 0 → st.get addr slack = .error ⟨.addressError, addr⟩ ∧
      st.set addr v slack = .error ⟨.addressError, addr⟩) ∧
    (0 ≤ addr →
      (∃ st', st.get addr slack = .ok (m.read addr.toNat, st') ∧ st'.Shows m ∧ addr.toNat < st'.ext) ∧
      (∃ st', st.set addr v slack = .ok st' ∧ st'.Shows (m.write addr.toNat v) ∧ addr.toNat < st'.ext ∧
        ∀ b, st'.show b = if b = addr.toNat then v else st.show b) ∧
      (st.ext ≤ addr.toNat → m.read addr.toNat = 0))

/-- R35, R36: growth makes the accessed cell exist, never shrinks the store, keeps every cell there was, and creates
cells that hold 0; an access to a cell that exists does not grow it, and the least growth is to `addr + 1`. -/
def Obligations.GrowthKeepsCells : Prop :=
  ∀ (st : Store) (a slack x : Nat),
    a < (st.reach a slack).ext ∧ st.ext ≤ (st.reach a slack).ext ∧
    (x < st.ext → (st.reach a slack).cells[x]? = st.cells[x]?) ∧
    (st.ext ≤ x → x < (st.reach a slack).ext → (st.reach a slack).cells[x]? = some 0) ∧
    (a < st.ext → st.reach a slack = st) ∧
    (st.ext ≤ a → (st.reach a slack).ext = a + 1 + slack)

/-- R83, R48: a variant of finite width or capacity does in every step what the unbounded machine does, or takes a
RangeError or CapacityError: it never wraps a value or drops an access. -/
def Obligations.BoundedVariantAgrees : Prop :=
  ∀ (c : Variant) (s : State), c.strictDigits = false →
    stepWith c s = step s ∨
    ∃ t f, stepWith c s = .next t ∧ t.runState = .faulted ∧ t.fault = some f ∧ BoundedFault f

/-- R83: a variant of finite width holds only values of its width, `pc` among them: every step keeps them so. -/
def Obligations.BoundedVariantKeepsWidth : Prop :=
  ∀ (c : Variant) (s t : State), FitsAll c s → stepWith c s = .next t → FitsAll c t

/-- R83: where the unbounded machine's step would leave the width (a stored result, an input, `rb`, or the advance
`pc + 1 + k` of R82), the variant of that width takes `RangeError` at the instruction and does nothing else; the
construction from an image with a value outside the width ends in a `RangeError` too. -/
def Obligations.RangeErrorWhereWidthIsLeft : Prop :=
  ∀ (c : Variant) (s : State), c.strictDigits = false → c.memCap = none →
    (∀ t, s.inTransaction = true → FitsAll c s → step s = .next t → ¬ FitsAll c t →
      stepWith c s = .next (s.raise ⟨.rangeError, s.pc⟩)) ∧
    (∀ img ms, s.inTransaction = false → s.moves = .construct img :: ms → (∃ v ∈ img, c.fits v = false) →
      ∃ t f, stepWith c s = .next t ∧ t.runState = .faulted ∧ t.fault = some f ∧ f.cause = .rangeError)

/-- A well-formed instruction can be held by the variant it is well formed for: its cells, opcode word included, are
integers of the variant's width (40_execution_cycle.md section 4). -/
def Obligations.WellFormedCellsFit : Prop :=
  ∀ (c : Variant) (i : Instr), c.Legal → WellFormed c i = true → (encode i).all c.fits = true

/-! ## The program text -/

/-- 30_encoding.md section 5: the comma-separated text of an image, with white space before and after it, loads as
that image. -/
def Obligations.ProgramTextLoadsImage : Prop :=
  ∀ (img : Image) (before after : List Char), img ≠ [] →
    (∀ ch ∈ before, isWs ch = true) → (∀ ch ∈ after, isWs ch = true) →
    loadText (before ++ imageText img ++ after) = some img
end

