-- ==== Sys2Proof/Laws/Memory.lean ====
section
/-!
SUPPORT. The laws of the cell memory: a read after a write, the canonical form, image load.
-/
namespace Sys2Proof.Machine

theorem Mem.read_erase (m : Mem) (a b : Nat) :
    (m.erase a).read b = if b = a then Mem.unlisted else m.read b := by
  induction m with
  | nil => simp [Mem.erase, Mem.read]
  | cons c m ih =>
    obtain ⟨x, v⟩ := c
    unfold Mem.erase at ih ⊢
    by_cases hx : x = a
    · subst hx
      simp only [List.filter, bne_self_eq_false, ih, Mem.read]
      split <;> rfl
    · have : (x != a) = true := by simpa using hx
      simp only [List.filter, this, Mem.read, ih]
      split
      · subst_vars
        simp_all
      · rfl

theorem Mem.read_insert (m : Mem) (a b : Nat) (v : Int) (ha : a ∉ m.map Prod.fst) : (m.insert a v).read b = if b = a then v else m.read b := by
  induction m with
  | nil => simp [Mem.insert, Mem.read]
  | cons c m ih =>
    obtain ⟨x, w⟩ := c
    simp only [List.map_cons, List.mem_cons, not_or] at ha
    unfold Mem.insert
    split
    · simp [Mem.read]
    · simp only [Mem.read, ih ha.2]
      split
      · subst_vars
        simp [Ne.symm ha.1]
      · rfl

theorem Mem.not_mem_erase (m : Mem) (a : Nat) : a ∉ (m.erase a).map Prod.fst := by
  simp [Mem.erase]

/-- A read after a write (R33): the written cell holds the value, every other cell is unchanged. It holds of
every list, canonical or not. -/
@[simp] theorem Mem.read_write (m : Mem) (a b : Nat) (v : Int) :
    (m.write a v).read b = if b = a then v else m.read b := by
  unfold Mem.write
  split
  · subst_vars
    exact m.read_erase a b
  · rw [Mem.read_insert _ _ _ _ (m.not_mem_erase a), Mem.read_erase]
    split <;> simp_all

theorem Mem.wfFrom_mono {m : Mem} {lo lo' : Nat} (h : lo' ≤ lo) (hm : Mem.wfFrom lo m = true) :
    Mem.wfFrom lo' m = true := by
  cases m with
  | nil => rfl
  | cons c m =>
    obtain ⟨x, v⟩ := c
    simp only [Mem.wfFrom, Bool.and_eq_true, decide_eq_true_eq] at hm ⊢
    exact ⟨⟨le_trans h hm.1.1, hm.1.2⟩, hm.2⟩

theorem Mem.wfFrom_erase {m : Mem} {lo : Nat} (a : Nat) (hm : Mem.wfFrom lo m = true) :
    Mem.wfFrom lo (m.erase a) = true := by
  induction m generalizing lo with
  | nil => rfl
  | cons c m ih =>
    obtain ⟨x, v⟩ := c
    simp only [Mem.wfFrom, Bool.and_eq_true, decide_eq_true_eq] at hm
    have ih' := ih hm.2
    unfold Mem.erase at ih' ⊢
    by_cases hx : x = a
    · simp only [List.filter, hx, bne_self_eq_false]
      exact Mem.wfFrom_mono (by omega) (hx ▸ ih')
    · have : (x != a) = true := by simpa using hx
      simp only [List.filter, this, Mem.wfFrom, Bool.and_eq_true, decide_eq_true_eq]
      exact ⟨hm.1, ih'⟩

theorem Mem.wfFrom_insert {m : Mem} {lo a : Nat} {v : Int} (hlo : lo ≤ a) (hv : v ≠ Mem.unlisted)
    (ha : a ∉ m.map Prod.fst) (hm : Mem.wfFrom lo m = true) : Mem.wfFrom lo (m.insert a v) = true := by
  have hv' : (v != Mem.unlisted) = true := by simpa using hv
  induction m generalizing lo with
  | nil => simp [Mem.insert, Mem.wfFrom, hlo, hv']
  | cons c m ih =>
    obtain ⟨x, w⟩ := c
    simp only [Mem.wfFrom, Bool.and_eq_true, decide_eq_true_eq] at hm
    simp only [List.map_cons, List.mem_cons, not_or] at ha
    unfold Mem.insert
    split
    · rename_i hlt
      simp only [Mem.wfFrom, Bool.and_eq_true, decide_eq_true_eq]
      exact ⟨⟨hlo, hv'⟩, ⟨hlt, hm.1.2⟩, hm.2⟩
    · rename_i hge
      simp only [Mem.wfFrom, Bool.and_eq_true, decide_eq_true_eq]
      exact ⟨hm.1, ih (by have := ha.1; omega) ha.2 hm.2⟩

/-- A write keeps the canonical form. -/
theorem Mem.wf_write {m : Mem} (a : Nat) (v : Int) (hm : m.wf = true) : (m.write a v).wf = true := by
  unfold Mem.write Mem.wf at *
  split
  · exact Mem.wfFrom_erase a hm
  · exact Mem.wfFrom_insert (Nat.zero_le a) ‹_› (m.not_mem_erase a) (Mem.wfFrom_erase a hm)

/-- Image load keeps the canonical form. -/
theorem Mem.wf_load {m : Mem} (base : Nat) (vs : List Int) (hm : m.wf = true) : (m.load base vs).wf = true := by
  induction vs generalizing m base with
  | nil => exact hm
  | cons v vs ih => exact ih _ (Mem.wf_write base v hm)

/-- What image load leaves at each address (R182). -/
theorem Mem.read_load (m : Mem) (base : Nat) (vs : List Int) (b : Nat) :
    (m.load base vs).read b =
      if base ≤ b ∧ b < base + vs.length then vs.getD (b - base) 0 else m.read b := by
  induction vs generalizing m base with
  | nil => simp only [Mem.load, List.length_nil]; rw [if_neg (by omega)]
  | cons v vs ih =>
    simp only [Mem.load, ih, Mem.read_write, List.length_cons]
    by_cases hb : b = base
    · subst hb
      rw [if_neg (by omega), if_pos rfl, if_pos (by omega)]
      simp
    · by_cases h : base + 1 ≤ b ∧ b < base + 1 + vs.length
      · rw [if_pos h, if_pos (by omega)]
        obtain ⟨k, rfl⟩ : ∃ k, b = base + 1 + k := ⟨b - base - 1, by omega⟩
        rw [show base + 1 + k - (base + 1) = k by omega, show base + 1 + k - base = k + 1 by omega]
        simp
      · rw [if_neg h, if_neg hb, if_neg (by omega)]

/-- The memory of reset is in canonical form. -/
theorem Mem.wf_reset : State.reset.mem.wf = true := rfl

/-- Below its first address a canonical list reads as unlisted. -/
theorem Mem.read_eq_unlisted_of_lt {m : Mem} {lo a : Nat} (hm : Mem.wfFrom lo m = true) (h : a < lo) :
    m.read a = Mem.unlisted := by
  induction m generalizing lo with
  | nil => rfl
  | cons c m ih =>
    obtain ⟨x, v⟩ := c
    simp only [Mem.wfFrom, Bool.and_eq_true, decide_eq_true_eq] at hm
    rw [Mem.read, if_neg (by omega)]
    exact ih hm.2 (by omega)

end Sys2Proof.Machine
end

