-- ==== Sys2Proof/Laws/State.lean ====
section
/-!
SUPPORT. What each update of the state leaves in each field: one lemma per field per update, true by unfolding.
-/
namespace Sys2Proof.Machine

@[simp] theorem State.raise_mem (f : FaultRecord) (s : State) : (s.raise f).mem = s.mem := rfl

@[simp] theorem State.raise_pc (f : FaultRecord) (s : State) : (s.raise f).pc = s.pc := rfl

@[simp] theorem State.raise_rb (f : FaultRecord) (s : State) : (s.raise f).rb = s.rb := rfl

@[simp] theorem State.raise_runState (f : FaultRecord) (s : State) : (s.raise f).runState = .faulted := rfl

@[simp] theorem State.raise_out (f : FaultRecord) (s : State) : (s.raise f).out = s.out := rfl

@[simp] theorem State.raise_fault (f : FaultRecord) (s : State) : (s.raise f).fault = some f := rfl

@[simp] theorem State.raise_src (f : FaultRecord) (s : State) : (s.raise f).src = s.src := rfl

@[simp] theorem State.raise_starveFault (f : FaultRecord) (s : State) : (s.raise f).starveFault = s.starveFault := rfl

@[simp] theorem State.raise_started (f : FaultRecord) (s : State) : (s.raise f).started = s.started := rfl

@[simp] theorem State.raise_moves (f : FaultRecord) (s : State) : (s.raise f).moves = s.moves := rfl

@[simp] theorem State.setPc_mem (s : State) (a : Nat) : (s.setPc a).mem = s.mem := rfl

@[simp] theorem State.setPc_pc (s : State) (a : Nat) : (s.setPc a).pc = a := rfl

@[simp] theorem State.setPc_rb (s : State) (a : Nat) : (s.setPc a).rb = s.rb := rfl

@[simp] theorem State.setPc_runState (s : State) (a : Nat) : (s.setPc a).runState = s.runState := rfl

@[simp] theorem State.setPc_out (s : State) (a : Nat) : (s.setPc a).out = s.out := rfl

@[simp] theorem State.setPc_fault (s : State) (a : Nat) : (s.setPc a).fault = s.fault := rfl

@[simp] theorem State.setPc_src (s : State) (a : Nat) : (s.setPc a).src = s.src := rfl

@[simp] theorem State.setPc_starveFault (s : State) (a : Nat) : (s.setPc a).starveFault = s.starveFault := rfl

@[simp] theorem State.setPc_started (s : State) (a : Nat) : (s.setPc a).started = s.started := rfl

@[simp] theorem State.setPc_moves (s : State) (a : Nat) : (s.setPc a).moves = s.moves := rfl

@[simp] theorem State.store_mem (s : State) (a : Nat) (v : Int) : (s.store a v).mem = s.mem.write a v := rfl

@[simp] theorem State.store_pc (s : State) (a : Nat) (v : Int) : (s.store a v).pc = s.pc := rfl

@[simp] theorem State.store_rb (s : State) (a : Nat) (v : Int) : (s.store a v).rb = s.rb := rfl

@[simp] theorem State.store_runState (s : State) (a : Nat) (v : Int) : (s.store a v).runState = s.runState := rfl

@[simp] theorem State.store_out (s : State) (a : Nat) (v : Int) : (s.store a v).out = s.out := rfl

@[simp] theorem State.store_fault (s : State) (a : Nat) (v : Int) : (s.store a v).fault = s.fault := rfl

@[simp] theorem State.store_src (s : State) (a : Nat) (v : Int) : (s.store a v).src = s.src := rfl

@[simp] theorem State.store_starveFault (s : State) (a : Nat) (v : Int) : (s.store a v).starveFault = s.starveFault := rfl

@[simp] theorem State.store_started (s : State) (a : Nat) (v : Int) : (s.store a v).started = s.started := rfl

@[simp] theorem State.store_moves (s : State) (a : Nat) (v : Int) : (s.store a v).moves = s.moves := rfl

@[simp] theorem State.halt_mem (next : Nat) (s : State) : (s.halt next).mem = s.mem := rfl

@[simp] theorem State.halt_pc (next : Nat) (s : State) : (s.halt next).pc = next := rfl

@[simp] theorem State.halt_rb (next : Nat) (s : State) : (s.halt next).rb = s.rb := rfl

@[simp] theorem State.halt_runState (next : Nat) (s : State) : (s.halt next).runState = .halted := rfl

@[simp] theorem State.halt_out (next : Nat) (s : State) : (s.halt next).out = s.out := rfl

@[simp] theorem State.halt_fault (next : Nat) (s : State) : (s.halt next).fault = s.fault := rfl

@[simp] theorem State.halt_src (next : Nat) (s : State) : (s.halt next).src = s.src := rfl

@[simp] theorem State.halt_starveFault (next : Nat) (s : State) : (s.halt next).starveFault = s.starveFault := rfl

@[simp] theorem State.halt_started (next : Nat) (s : State) : (s.halt next).started = s.started := rfl

@[simp] theorem State.halt_moves (next : Nat) (s : State) : (s.halt next).moves = s.moves := rfl

@[simp] theorem State.install_mem (src : Source) (s : State) : (s.install src).mem = s.mem := rfl

@[simp] theorem State.install_pc (src : Source) (s : State) : (s.install src).pc = s.pc := rfl

@[simp] theorem State.install_rb (src : Source) (s : State) : (s.install src).rb = s.rb := rfl

@[simp] theorem State.install_runState (src : Source) (s : State) : (s.install src).runState = s.runState := rfl

@[simp] theorem State.install_out (src : Source) (s : State) : (s.install src).out = s.out := rfl

@[simp] theorem State.install_fault (src : Source) (s : State) : (s.install src).fault = s.fault := rfl

@[simp] theorem State.install_src (src : Source) (s : State) : (s.install src).src = src := rfl

@[simp] theorem State.install_starveFault (src : Source) (s : State) : (s.install src).starveFault = s.starveFault := rfl

@[simp] theorem State.install_started (src : Source) (s : State) : (s.install src).started = s.started := rfl

@[simp] theorem State.install_moves (src : Source) (s : State) : (s.install src).moves = s.moves := rfl

@[simp] theorem State.construct_mem (image : List Int) (s : State) : (s.construct image).mem = Mem.load [] 0 image := rfl

@[simp] theorem State.construct_pc (image : List Int) (s : State) : (s.construct image).pc = 0 := rfl

@[simp] theorem State.construct_rb (image : List Int) (s : State) : (s.construct image).rb = 0 := rfl

@[simp] theorem State.construct_runState (image : List Int) (s : State) : (s.construct image).runState = .running := rfl

@[simp] theorem State.construct_out (image : List Int) (s : State) : (s.construct image).out = none := rfl

@[simp] theorem State.construct_fault (image : List Int) (s : State) : (s.construct image).fault = none := rfl

@[simp] theorem State.construct_src (image : List Int) (s : State) : (s.construct image).src = s.src := rfl

@[simp] theorem State.construct_starveFault (image : List Int) (s : State) : (s.construct image).starveFault = s.starveFault := rfl

@[simp] theorem State.construct_started (image : List Int) (s : State) : (s.construct image).started = false := rfl

@[simp] theorem State.construct_moves (image : List Int) (s : State) : (s.construct image).moves = s.moves := rfl

/-- `Resume` begins by making the state RUNNING, but in a terminal state (R122). -/
theorem State.begin_of_live (starve : Bool) (s : State) (hh : s.runState ≠ .halted) (hf : s.runState ≠ .faulted) :
    s.begin starve = { s with runState := .running, starveFault := starve, started := true } := by
  unfold State.begin
  split <;> simp_all

/-- In a terminal state the start of a transaction changes nothing (R128, R129). -/
theorem State.begin_of_terminal (starve : Bool) (s : State) (h : s.runState = .halted ∨ s.runState = .faulted) :
    s.begin starve = s := by
  unfold State.begin
  split <;> simp_all

@[simp] theorem State.begin_mem (starve : Bool) (s : State) : (s.begin starve).mem = s.mem := by
  unfold State.begin
  split <;> rfl

@[simp] theorem State.begin_pc (starve : Bool) (s : State) : (s.begin starve).pc = s.pc := by
  unfold State.begin
  split <;> rfl

@[simp] theorem State.begin_rb (starve : Bool) (s : State) : (s.begin starve).rb = s.rb := by
  unfold State.begin
  split <;> rfl

@[simp] theorem State.begin_out (starve : Bool) (s : State) : (s.begin starve).out = s.out := by
  unfold State.begin
  split <;> rfl

@[simp] theorem State.begin_fault (starve : Bool) (s : State) : (s.begin starve).fault = s.fault := by
  unfold State.begin
  split <;> rfl

@[simp] theorem State.begin_src (starve : Bool) (s : State) : (s.begin starve).src = s.src := by
  unfold State.begin
  split <;> rfl

@[simp] theorem State.begin_moves (starve : Bool) (s : State) : (s.begin starve).moves = s.moves := by
  unfold State.begin
  split <;> rfl

end Sys2Proof.Machine
end

