-- ==== Sys2Proof/Laws/Operations.lean ====
section
/-!
SUPPORT. What each shared operation can do, said once: with the spec's parameters (R5) the checks of the bounded
variants always pass; the resolver, the settling of an instruction, the shared arms, and the fetch.
-/
namespace Sys2Proof.Machine

open Sys2Proof.Safety

@[simp] theorem fits_spec (v : Int) : Config.spec.fits v = true := rfl

@[simp] theorem holds_spec (a : Nat) : Config.spec.holds a = true := rfl

@[simp] theorem checkRange_spec (s : State) (v : Int) : checkRange Config.spec s v = .ok v := rfl

@[simp] theorem pcPlus_spec (s : State) (n : Nat) : pcPlus Config.spec s n = .ok (s.pc + n) := rfl

@[simp] theorem fetchCell_spec (s : State) (a : Nat) : fetchCell Config.spec s a = .ok (s.mem.read a) := rfl

/-- The address check with the spec's parameters (R34). -/
theorem checkAddr_spec (x : Int) :
    checkAddr Config.spec x = if x < 0 then .error ⟨.addressError, x⟩ else .ok x.toNat := rfl

/-- Resolving an address with the spec's parameters: the sign is all that matters (R34). -/
theorem resolve_spec (s : State) (x : Int) :
    resolve Config.spec s x = if x < 0 then .error ⟨.addressError, x⟩ else .ok x.toNat := rfl

/-- A read parameter whose address exists, or that has none, resolves to its value (R74). -/
theorem readOperand_ok {s : State} {a : Src} (h : ∀ x, srcAddr s a = some x → 0 ≤ x) :
    readOperand Config.spec s a = .ok (value s a) := by
  unfold readOperand value
  cases ha : srcAddr s a with
  | none => rfl
  | some x =>
    have := h x ha
    simp only [resolve_spec, if_neg (show ¬ x < 0 by omega)]
    rfl

/-- A read parameter with a negative address faults with that address (R74). -/
theorem readOperand_error {s : State} {a : Src} {x : Int} (ha : srcAddr s a = some x) (h : x < 0) :
    readOperand Config.spec s a = .error ⟨.addressError, x⟩ := by
  simp only [readOperand, ha, resolve_spec, if_pos h]
  rfl

/-- Everything a read parameter can resolve to (R74). -/
theorem readOperand_cases (s : State) (a : Src) :
    (readOperand Config.spec s a = .ok (value s a) ∧ ∀ x, srcAddr s a = some x → 0 ≤ x) ∨
    ∃ x, srcAddr s a = some x ∧ x < 0 ∧ readOperand Config.spec s a = .error ⟨.addressError, x⟩ := by
  cases ha : srcAddr s a with
  | none => exact .inl ⟨readOperand_ok (by simp [ha]), by simp⟩
  | some x =>
    by_cases h : x < 0
    · exact .inr ⟨x, rfl, h, readOperand_error ha h⟩
    · exact .inl ⟨readOperand_ok (by simp only [ha, Option.some.injEq]; omega), by
        simp only [Option.some.injEq]; omega⟩

/-- Everything a write parameter can resolve to (R75). -/
theorem writeAddr_spec (s : State) (d : Dst) :
    writeAddr Config.spec s d =
      if dstAddr s d < 0 then .error ⟨.addressError, dstAddr s d⟩ else .ok (dstAddr s d).toNat := rfl

/-- Settling always answers a next state (R79). -/
theorem settle_next (s : State) (r : Except FaultRecord State) :
    settle s r = .next (match r with | .ok t => t | .error f => s.raise f) := by
  cases r <;> rfl

/-- The two ways an instruction settles (R79). -/
theorem settle_cases {s t : State} {r : Except FaultRecord State} (h : settle s r = .next t) :
    r = .ok t ∨ ∃ f, r = .error f ∧ t = s.raise f := by
  cases r with
  | ok u => exact .inl (by simpa [settle] using h)
  | error f => exact .inr ⟨f, rfl, by simpa [settle] using h.symm⟩

/-- The meanings are the effects of the unbounded machine, settled. -/
theorem exec_eq_settle (i : Instr) (s : State) : exec i s = settle s (effectWith Config.spec i s) := by
  cases i <;> rfl

/-- A cycle is its outcome, settled. -/
theorem cycle_eq_settle (s : State) : cycle s = settle s (outcomeWith Config.spec s) := by
  unfold cycle outcomeWith fetchInstr
  cases h : fetchWith Config.spec s with
  | error f => rfl
  | ok i => exact exec_eq_settle i s

/-- A `P3W` instruction whose addresses exist stores its result and advances by 4 (R70, R78). -/
theorem computeWith_ok (f : Int → Int → Int) {a b : Src} {d : Dst} {s : State}
    (ha : ∀ x, srcAddr s a = some x → 0 ≤ x) (hb : ∀ x, srcAddr s b = some x → 0 ≤ x) (hd : 0 ≤ dstAddr s d) :
    computeWith Config.spec f a b d s =
      .ok ((s.store (dstAddr s d).toNat (f (value s a) (value s b))).setPc (s.pc + 4)) := by
  simp only [computeWith, readOperand_ok ha, readOperand_ok hb, writeAddr_spec,
    if_neg (show ¬ dstAddr s d < 0 by omega), checkRange_spec]
  rfl

/-- Everything a `P3W` instruction can do (R70, R76). -/
theorem computeWith_cases (f : Int → Int → Int) (a b : Src) (d : Dst) (s : State) :
    (∀ x, srcAddr s a = some x → 0 ≤ x) ∧ (∀ x, srcAddr s b = some x → 0 ≤ x) ∧ 0 ≤ dstAddr s d ∧
      computeWith Config.spec f a b d s =
        .ok ((s.store (dstAddr s d).toNat (f (value s a) (value s b))).setPc (s.pc + 4)) ∨
    ∃ x, x < 0 ∧ computeWith Config.spec f a b d s = .error ⟨.addressError, x⟩ := by
  rcases readOperand_cases s a with ⟨ha, ha'⟩ | ⟨x, _, hx, ha⟩
  · rcases readOperand_cases s b with ⟨hb, hb'⟩ | ⟨x, _, hx, hb⟩
    · by_cases hd : dstAddr s d < 0
      · refine .inr ⟨_, hd, ?_⟩
        simp only [computeWith, ha, hb, writeAddr_spec, if_pos hd]
        rfl
      · exact .inl ⟨ha', hb', by omega, computeWith_ok f ha' hb' (by omega)⟩
    · refine .inr ⟨x, hx, ?_⟩
      simp only [computeWith, ha, hb]
      rfl
  · refine .inr ⟨x, hx, ?_⟩
    simp only [computeWith, ha]
    rfl

/-- The addresses of an instruction's read parameters exist when all its addresses do. -/
theorem resolvable_src {s : State} {i : Instr} (h : Resolvable s i) {a : Src} (ha : a ∈ i.sources) {x : Int}
    (hx : srcAddr s a = some x) : 0 ≤ x :=
  h x (List.mem_append_left _ (List.mem_filterMap.2 ⟨a, ha, hx⟩))

/-- The address of an instruction's write parameter exists when all its addresses do. -/
theorem resolvable_dst {s : State} {i : Instr} (h : Resolvable s i) {d : Dst} (hd : i.dest = some d) :
    0 ≤ dstAddr s d :=
  h _ (by simp [addresses, hd])

/-- A store and an advance, as the claims say it. -/
theorem stored_of_store (s : State) (n : Nat) (v : Int) (k : Nat) :
    Stored s ((s.store n v).setPc (s.pc + k)) n v k where
  starveFault := rfl
  started := rfl
  moves := rfl
  mem b := by simp
  pc := rfl
  rb := rfl
  runState := rfl
  out := rfl
  fault := rfl
  src := rfl

/-- A step that fails in its first check fails with that check's fault. -/
theorem bind_error {α β : Type} {r : Except FaultRecord α} {f : FaultRecord} (h : r = .error f)
    (k : α → Except FaultRecord β) : (r >>= k) = .error f := by
  rw [h]
  rfl

/-- A step whose first check passes goes on with its value. -/
theorem bind_ok {α β : Type} {r : Except FaultRecord α} {a : α} (h : r = .ok a) (k : α → Except FaultRecord β) :
    (r >>= k) = k a := by
  rw [h]
  rfl

/-- A conditional jump whose addresses exist (R100, R101). -/
theorem jumpWith_ok (taken : Int → Bool) {a b : Src} {s : State} (ha : ∀ x, srcAddr s a = some x → 0 ≤ x)
    (hb : ∀ x, srcAddr s b = some x → 0 ≤ x) :
    jumpWith Config.spec taken a b s =
      if taken (value s a) then
        if value s b < 0 then .error ⟨.addressError, value s b⟩ else .ok (s.setPc (value s b).toNat)
      else .ok (s.setPc (s.pc + 3)) := by
  rw [jumpWith, bind_ok (readOperand_ok ha), bind_ok (readOperand_ok hb)]
  split
  · unfold checkTarget
    split <;> rfl
  · rfl

/-- An IN whose address exists (R95). -/
theorem inWith_ok {d : Dst} {s : State} (hd : 0 ≤ dstAddr s d) :
    inWith Config.spec d s =
      match s.src.pull with
      | some (v, rest) => .ok { (s.store (dstAddr s d).toNat v).setPc (s.pc + 2) with src := rest }
      | none =>
        if s.starveFault then .error ⟨.inputStarvation, s.pc⟩ else .ok { s with runState := .awaitingInput } := by
  rw [inWith, bind_ok (a := (dstAddr s d).toNat) (by rw [writeAddr_spec, if_neg (by omega)])]
  cases s.src.pull <;> rfl

/-- An OUT whose address exists (R96). -/
theorem outWith_ok {a : Src} {s : State} (ha : ∀ x, srcAddr s a = some x → 0 ≤ x) :
    outWith Config.spec a s =
      .ok { s.setPc (s.pc + 2) with out := some (value s a), runState := .producedOutput } := by
  rw [outWith, bind_ok (readOperand_ok ha)]
  rfl

/-- A HLT of the unbounded machine (R115). -/
@[simp] theorem haltWith_spec (s : State) : haltWith Config.spec s = .ok (s.halt (s.pc + 1)) := rfl

/-- An ARB whose address exists (R110). -/
theorem arbWith_ok {a : Src} {s : State} (ha : ∀ x, srcAddr s a = some x → 0 ≤ x) :
    arbWith Config.spec a s = .ok { s.setPc (s.pc + 2) with rb := s.rb + value s a } := by
  rw [arbWith, bind_ok (readOperand_ok ha)]
  rfl

/-- The decoder with the spec's parameters: the sign, then the table; surplus digits do not matter (R61, R63). -/
theorem decodeWord_spec (w : Int) :
    decodeWord Config.spec w = if w < 0 then .error (.invalidOpcode w) else decodeTable w.toNat := by
  unfold decodeWord
  split
  · rfl
  · cases decodeTable w.toNat <;> rfl

/-- The decode phase is the decoder with its error recorded (R72). -/
theorem decodeStep_eq (c : Variant) (w : Int) : decodeStep c w = (decodeWord c w).mapError decodeFault := by
  unfold decodeStep
  cases decodeWord c w <;> rfl

/-- The fetch of an opcode word that decodes (R71 to R73). -/
theorem fetchInstr_ok {s : State} {h : Header} (hd : decodeWord Config.spec (s.mem.read s.pc) = .ok h) :
    fetchInstr s =
      .ok (h.instr (s.mem.read (s.pc + 1)) (s.mem.read (s.pc + 2)) (s.mem.read (s.pc + 3))) := by
  have hs : decodeStep Config.spec (s.mem.read s.pc) = .ok h := by simp [decodeStep, hd]
  simp only [fetchInstr, fetchWith, fetchCell_spec, fetchParam]
  show (decodeStep Config.spec (s.mem.read s.pc)).bind _ = _
  rw [hs]
  cases h <;> rfl

/-- The fetch of an opcode word that does not decode (R72). -/
theorem fetchInstr_error {s : State} {e : DecodeError} (hd : decodeWord Config.spec (s.mem.read s.pc) = .error e) :
    fetchInstr s = .error (decodeFault e) := by
  have hs : decodeStep Config.spec (s.mem.read s.pc) = .error (decodeFault e) := by simp [decodeStep, hd]
  simp only [fetchInstr, fetchWith, fetchCell_spec]
  show (decodeStep Config.spec (s.mem.read s.pc)).bind _ = _
  rw [hs]
  rfl

end Sys2Proof.Machine
end

