-- ==== Sys2Proof/Laws/PerInstr.lean ====
section
/-!
SUPPORT. Statements about every instruction as syntax, one lemma per constructor.
-/
namespace Sys2Proof.Laws.Encoding

/-- The shape of an encoding (spec R50, R51, R61): the opcode is the low two digits of the opcode word, no digit
stands above the last mode digit, and the cells are one opcode word and `k` parameter words. -/
def Statement (i : Instr) : Prop :=
  opcodeWord i % 100 = i.opcode ∧ opcodeWord i < 10 ^ (i.arity + 2) ∧ (encode i).length = i.length

theorem modeDigit_le (m : Mode) : m.digit ≤ 2 := by
  cases m <;> decide

theorem writeModeDigit_le (m : WriteMode) : m.digit ≤ 2 := by
  cases m <;> decide

theorem add (a b : Src) (d : Dst) : Statement (.add a b d) := by
  have h1 := modeDigit_le a.mode
  have h2 := modeDigit_le b.mode
  have h3 := writeModeDigit_le d.mode
  refine ⟨?_, ?_, rfl⟩ <;> simp only [opcodeWord, Instr.opcode, Instr.modeDigits, Instr.arity, List.getD_cons_zero,
    List.getD_cons_succ] <;> omega

theorem mul (a b : Src) (d : Dst) : Statement (.mul a b d) := by
  have h1 := modeDigit_le a.mode
  have h2 := modeDigit_le b.mode
  have h3 := writeModeDigit_le d.mode
  refine ⟨?_, ?_, rfl⟩ <;> simp only [opcodeWord, Instr.opcode, Instr.modeDigits, Instr.arity, List.getD_cons_zero,
    List.getD_cons_succ] <;> omega

theorem inp (d : Dst) : Statement (.inp d) := by
  have h1 := writeModeDigit_le d.mode
  refine ⟨?_, ?_, rfl⟩ <;> simp only [opcodeWord, Instr.opcode, Instr.modeDigits, Instr.arity, List.getD_cons_zero,
    List.getD_cons_succ, List.getD_nil] <;> omega

theorem out (a : Src) : Statement (.out a) := by
  have h1 := modeDigit_le a.mode
  refine ⟨?_, ?_, rfl⟩ <;> simp only [opcodeWord, Instr.opcode, Instr.modeDigits, Instr.arity, List.getD_cons_zero,
    List.getD_cons_succ, List.getD_nil] <;> omega

theorem jnz (a b : Src) : Statement (.jnz a b) := by
  have h1 := modeDigit_le a.mode
  have h2 := modeDigit_le b.mode
  refine ⟨?_, ?_, rfl⟩ <;> simp only [opcodeWord, Instr.opcode, Instr.modeDigits, Instr.arity, List.getD_cons_zero,
    List.getD_cons_succ, List.getD_nil] <;> omega

theorem jz (a b : Src) : Statement (.jz a b) := by
  have h1 := modeDigit_le a.mode
  have h2 := modeDigit_le b.mode
  refine ⟨?_, ?_, rfl⟩ <;> simp only [opcodeWord, Instr.opcode, Instr.modeDigits, Instr.arity, List.getD_cons_zero,
    List.getD_cons_succ, List.getD_nil] <;> omega

theorem lt (a b : Src) (d : Dst) : Statement (.lt a b d) := by
  have h1 := modeDigit_le a.mode
  have h2 := modeDigit_le b.mode
  have h3 := writeModeDigit_le d.mode
  refine ⟨?_, ?_, rfl⟩ <;> simp only [opcodeWord, Instr.opcode, Instr.modeDigits, Instr.arity, List.getD_cons_zero,
    List.getD_cons_succ] <;> omega

theorem eq (a b : Src) (d : Dst) : Statement (.eq a b d) := by
  have h1 := modeDigit_le a.mode
  have h2 := modeDigit_le b.mode
  have h3 := writeModeDigit_le d.mode
  refine ⟨?_, ?_, rfl⟩ <;> simp only [opcodeWord, Instr.opcode, Instr.modeDigits, Instr.arity, List.getD_cons_zero,
    List.getD_cons_succ] <;> omega

theorem arb (a : Src) : Statement (.arb a) := by
  have h1 := modeDigit_le a.mode
  refine ⟨?_, ?_, rfl⟩ <;> simp only [opcodeWord, Instr.opcode, Instr.modeDigits, Instr.arity, List.getD_cons_zero,
    List.getD_cons_succ, List.getD_nil] <;> omega

theorem hlt : Statement .hlt := by
  exact ⟨rfl, by simp [opcodeWord, Instr.opcode, Instr.modeDigits, Instr.arity], rfl⟩

end Sys2Proof.Laws.Encoding
end

