-- ==== Sys2Proof/Laws/Transaction.lean ====
section
/-!
SUPPORT. What a step and a transaction can do, said once: a step inside a transaction is a cycle, a step outside one
is the host's turn; `Resume` runs cycles on a live instance and nothing on a terminal one.
-/
namespace Sys2Proof.Machine

/-- A transaction is in progress exactly when the state is RUNNING and the host has started the instance. -/
theorem State.inTransaction_iff (s : State) :
    s.inTransaction = true ↔ s.runState = .running ∧ s.started = true := by
  simp [State.inTransaction]

/-- A step inside a transaction is one instruction (R70). -/
theorem step_of_inTransaction {s : State} (h : s.inTransaction = true) : step s = cycle s := by
  simp [step, h]

/-- A step between transactions is the host's (R136). -/
theorem step_of_not_inTransaction {s : State} (h : s.inTransaction = false) : step s = .next (hostTurn s) := by
  simp [step, h]

/-- The first of several steps. -/
theorem steps_succ {s t : State} (n : Nat) (h : step s = .next t) : steps (n + 1) s = steps n t := by
  simp only [steps, h]

/-- `Resume` of a live instance runs cycles until the state is not RUNNING (R122). -/
theorem resume_of_live (fuel : Nat) (src : Source) (b : Bool) {s : State} (hh : s.runState ≠ .halted)
    (hf : s.runState ≠ .faulted) :
    resume fuel src b s =
      (runCycles fuel ((s.install src).begin b)).bind fun t => t.report.map fun r => (r, t) := by
  unfold resume
  cases h : s.runState <;> first | rfl | exact absurd h hh | exact absurd h hf

/-- `Resume` of a terminal instance only reports (R128, R129). -/
theorem resume_of_terminal (fuel : Nat) (src : Source) (b : Bool) {s : State}
    (h : s.runState = .halted ∨ s.runState = .faulted) :
    resume fuel src b s = s.report.map fun r => (r, s) := by
  unfold resume
  rcases h with h | h <;> simp only [h]

/-- A run of cycles that has not left RUNNING goes on with the next cycle. -/
theorem runCycles_running {s t : State} (n : Nat) (hs : s.runState = .running) (h : cycle s = .next t) :
    runCycles (n + 1) s = runCycles n t := by
  simp only [runCycles, hs, h, if_true]

/-- A run of cycles ends where the state is not RUNNING, whatever the fuel. -/
theorem runCycles_stopped {s : State} (n : Nat) (hs : s.runState ≠ .running) : runCycles n s = some s := by
  cases n <;> simp only [runCycles, if_neg hs]

end Sys2Proof.Machine
end

