-- ==== Sys2Proof/Machine/Assembly.lean ====
section
/-!
DEFINITION. The spec's own assembler notation (spec 30_encoding.md R64): statements and their cells, and the reading
of a line of text. It is a notation for programs; the core never sees it. White space between tokens is free
(log 12).
-/
namespace Sys2Proof.Machine

/-- The tokens of a line. -/
inductive Token where
  | word (name : List Char)
  | num (n : Nat)
  | openBracket
  | closeBracket
  | hash
  | comma
  | colon
  | plus
  | minus
  | arrow
  deriving DecidableEq, Repr

/-- A statement: an instruction, or `DATA` with its cells. -/
inductive Stmt where
  | instr (i : Instr)
  | data (vs : List Int)
  deriving DecidableEq, Repr

/-- The cells a statement assembles to (R64): canonical opcode words only (R61). -/
def Stmt.cells : Stmt → List Int
  | .instr i => encode i
  | .data vs => vs

/-- A line: its address annotation, if any, and its statement, if any. -/
structure Line where
  at? : Option Nat
  stmt? : Option Stmt
  deriving DecidableEq, Repr

/-- The token of a single character, if it is one. -/
def symbolOf (ch : Char) : Option Token :=
  if ch = '[' then some .openBracket
  else if ch = ']' then some .closeBracket
  else if ch = '#' then some .hash
  else if ch = ',' then some .comma
  else if ch = ':' then some .colon
  else if ch = '+' then some .plus
  else none

/-- A letter of a mnemonic or of `rb`. -/
def isLetter (ch : Char) : Bool :=
  (65 ≤ ch.toNat ∧ ch.toNat ≤ 90) ∨ (97 ≤ ch.toNat ∧ ch.toNat ≤ 122)

/-- What the tokenizer is inside of. -/
inductive Pending where
  | nothing
  | letters (rev : List Char)
  | digits (n : Nat)
  | dash
  deriving DecidableEq, Repr

/-- The token a pending run ends as. -/
def Pending.close : Pending → List Token
  | .nothing => []
  | .letters rev => [.word rev.reverse]
  | .digits n => [.num n]
  | .dash => [.minus]

/-- The tokens of a line up to its comment (R64: `;` to the end of the line). -/
def tokens : Pending → List Char → Option (List Token)
  | p, [] => some p.close
  | p, ch :: cs =>
    if ch = ';' then some p.close
    else if isWs ch then (tokens .nothing cs).map (p.close ++ ·)
    else if ch = '>' then
      if p = .dash then (tokens .nothing cs).map (Token.arrow :: ·) else none
    else if ch = '-' then (tokens .dash cs).map (p.close ++ ·)
    else
      match symbolOf ch, digitOf ch, p with
      | some t, _, p => (tokens .nothing cs).map (p.close ++ t :: ·)
      | none, some d, .digits n => tokens (.digits (10 * n + d)) cs
      | none, some d, p => (tokens (.digits d) cs).map (p.close ++ ·)
      | none, none, p =>
        if isLetter ch then
          match p with
          | .letters rev => tokens (.letters (ch :: rev)) cs
          | p => (tokens (.letters [ch]) cs).map (p.close ++ ·)
        else none

/-- A signed decimal integer at the front of the tokens. -/
def takeInt : List Token → Option (Int × List Token)
  | .num n :: ts => some ((n : Int), ts)
  | .minus :: .num n :: ts => some (-(n : Int), ts)
  | _ => none

/-- The closing bracket of an operand. -/
def takeClose : List Token → Option (List Token)
  | .closeBracket :: ts => some ts
  | _ => none

/-- An operand at the front of the tokens: `[n]`, `#n`, `[rb+n]` or `[rb-n]` (R64). -/
def takeSrc : List Token → Option (Src × List Token)
  | .hash :: ts => (takeInt ts).map fun (n, ts) => (.immediate n, ts)
  | .openBracket :: .word ['r', 'b'] :: .plus :: ts => do
    let (n, ts) ← takeInt ts
    let ts ← takeClose ts
    some (.relative n, ts)
  | .openBracket :: .word ['r', 'b'] :: .minus :: ts => do
    let (n, ts) ← takeInt ts
    let ts ← takeClose ts
    some (.relative (-n), ts)
  | .openBracket :: ts => do
    let (n, ts) ← takeInt ts
    let ts ← takeClose ts
    some (.position n, ts)
  | _ => none

/-- The write operand after `->`, at the end of the statement: a position or relative operand (R64). -/
def takeDst (ts : List Token) : Option Dst :=
  match ts with
  | .arrow :: ts =>
    match takeSrc ts with
    | some (.position n, []) => some (.position n)
    | some (.relative n, []) => some (.relative n)
    | _ => none
  | _ => none

/-- One read operand and the tokens after it. -/
def operand1 (ts : List Token) : Option (Src × List Token) :=
  takeSrc ts

/-- Two read operands separated by a comma and the tokens after them. -/
def operand2 (ts : List Token) : Option (Src × Src × List Token) :=
  match takeSrc ts with
  | some (a, .comma :: ts) => (takeSrc ts).map fun (b, ts) => (a, b, ts)
  | _ => none

/-- Two read operands and a write operand. -/
def statement3 (mk : Src → Src → Dst → Instr) (ts : List Token) : Option Instr :=
  match operand2 ts with
  | some (a, b, ts) => (takeDst ts).map (mk a b)
  | none => none

/-- Two read operands at the end of the statement. -/
def statement2 (mk : Src → Src → Instr) (ts : List Token) : Option Instr :=
  match operand2 ts with
  | some (a, b, []) => some (mk a b)
  | _ => none

/-- One read operand at the end of the statement. -/
def statement1 (mk : Src → Instr) (ts : List Token) : Option Instr :=
  match operand1 ts with
  | some (a, []) => some (mk a)
  | _ => none

/-- The integers of `DATA v, v, ...`, one at least; `n` bounds their number. -/
def takeData : Nat → List Token → Option (List Int)
  | 0, _ => none
  | n + 1, ts =>
    match takeInt ts with
    | some (v, []) => some [v]
    | some (v, .comma :: ts) => (takeData n ts).map (v :: ·)
    | _ => none

/-- The statement forms of R64. -/
def parseStmt : List Token → Option Stmt
  | .word ['A', 'D', 'D'] :: ts => (statement3 .add ts).map .instr
  | .word ['M', 'U', 'L'] :: ts => (statement3 .mul ts).map .instr
  | .word ['I', 'N'] :: ts => (takeDst ts).map fun d => .instr (.inp d)
  | .word ['O', 'U', 'T'] :: ts => (statement1 .out ts).map .instr
  | .word ['J', 'N', 'Z'] :: ts => (statement2 .jnz ts).map .instr
  | .word ['J', 'Z'] :: ts => (statement2 .jz ts).map .instr
  | .word ['L', 'T'] :: ts => (statement3 .lt ts).map .instr
  | .word ['E', 'Q'] :: ts => (statement3 .eq ts).map .instr
  | .word ['A', 'R', 'B'] :: ts => (statement1 .arb ts).map .instr
  | .word ['H', 'L', 'T'] :: [] => some (.instr .hlt)
  | .word ['D', 'A', 'T', 'A'] :: ts => (takeData ts.length ts).map .data
  | _ => none

/-- The statement of a line, or none on a line without one. -/
def parseBody (at? : Option Nat) : List Token → Option Line
  | [] => some ⟨at?, none⟩
  | ts => (parseStmt ts).map fun st => ⟨at?, some st⟩

/-- A line of text (R64): an address annotation `12:`, a statement, a comment, each of which may be absent. -/
def parseLine (text : List Char) : Option Line :=
  match tokens .nothing text with
  | none => none
  | some (.num n :: .colon :: ts) => parseBody (some n) ts
  | some ts => parseBody none ts

/-- The cells of a list of lines, the first at `base`; an address annotation is a check, not a directive
(R64): where it is wrong nothing is assembled. -/
def assemble : Nat → List Line → Option (List Int)
  | _, [] => some []
  | base, l :: ls =>
    if l.at?.getD base = base then
      match l.stmt? with
      | none => assemble base ls
      | some st => (assemble (base + st.cells.length) ls).map (st.cells ++ ·)
    else none

/-- The cells of a program in the notation of R64, line by line. -/
def assembleText (lines : List (List Char)) : Option (List Int) :=
  (lines.mapM parseLine).bind (assemble 0)

end Sys2Proof.Machine
end

