-- ==== Sys2Proof/Tests/Slice0.lean ====
section
/-!
SUPPORT. Tests of the model on words and images whose results the spec states (mostly spec/95_test_vectors.md), a smoke
test of WellFormed, and one named witness for each obligation that has hypotheses.
-/
namespace Sys2Proof.Tests

open Sys2Proof.Machine Sys2Proof.Safety

/-! ## Helpers -/

/-- A fresh instance of an image, inside its first transaction, interactive, with these inputs. -/
def boot (image inputs : List Int) : State :=
  ((State.reset.construct image).install (.queue inputs)).begin false

/-- The same in drain mode. -/
def bootDrain (image inputs : List Int) : State :=
  ((State.reset.construct image).install (.queue inputs)).begin true

/-- The state after one step. -/
def after (s : State) : Option State :=
  match step s with
  | .next t => some t
  | .fault _ => none
  | .refused _ => none

/-- The state an outcome goes on in. -/
def nextOf (o : Host.Outcome State Fault Refusal) : Option State :=
  match o with
  | .next t => some t
  | .fault _ => none
  | .refused _ => none

theorem resolvable_of {s : State} {i : Instr} (h : (addresses s i).all (fun x => decide (0 ≤ x)) = true) :
    Resolvable s i := by
  simpa [Resolvable] using h

/-! ## WellFormed: a parameter of 2^63 does not fit 64 bits, 2^63 - 1 does (R83) -/

/-- The 64-bit variant of R83. -/
def w64 : Variant := { width := some 64, memCap := none, strictDigits := false }

/-- A HLT in the highest cell that 64 bits can address, inside a transaction. -/
def top : State :=
  { State.reset with mem := [(9223372036854775807, 99)], pc := 9223372036854775807, started := true }

theorem test_wf_add : WellFormed w64 (.add (.position 9223372036854775808) (.position 0) (.position 0)) = false := by
  decide

theorem test_wf_mul : WellFormed w64 (.mul (.position 0) (.immediate 9223372036854775808) (.position 0)) = false := by
  decide

theorem test_wf_inp : WellFormed w64 (.inp (.relative 9223372036854775808)) = false := by decide

theorem test_wf_out : WellFormed w64 (.out (.immediate 9223372036854775808)) = false := by decide

theorem test_wf_jnz : WellFormed w64 (.jnz (.immediate 1) (.immediate 9223372036854775808)) = false := by decide

theorem test_wf_jz : WellFormed w64 (.jz (.immediate (-9223372036854775809)) (.immediate 0)) = false := by decide

theorem test_wf_lt : WellFormed w64 (.lt (.position 0) (.position 0) (.position 9223372036854775808)) = false := by
  decide

theorem test_wf_eq : WellFormed w64 (.eq (.position 0) (.relative 9223372036854775808) (.position 0)) = false := by
  decide

theorem test_wf_arb : WellFormed w64 (.arb (.immediate (-9223372036854775809))) = false := by decide

theorem test_wf_limits :
    WellFormed w64 (.jz (.immediate (-9223372036854775808)) (.immediate 9223372036854775807)) = true ∧
    WellFormed w64 .hlt = true ∧ WellFormed Config.spec (.arb (.immediate (10 ^ 40))) = true := by
  decide

/-! ## Decoding: words written out digit by digit from R51 and R55 (opcode, then m1, m2, m3), 95 section 2.1 -/

theorem test_decode_add : decodeWord Config.spec (1 + 100 * 1 + 1000 * 1 + 10000 * 2) =
    .ok (.add .immediate .immediate .relative) := by
  decide

theorem test_decode_mul : decodeWord Config.spec (2 + 100 * 0 + 1000 * 1 + 10000 * 0) =
    .ok (.mul .position .immediate .position) := by
  decide

theorem test_decode_in : decodeWord Config.spec (3 + 100 * 2) = .ok (.inp .relative) := by decide

theorem test_decode_out : decodeWord Config.spec (4 + 100 * 1) = .ok (.out .immediate) := by decide

theorem test_decode_jnz : decodeWord Config.spec (5 + 100 * 1 + 1000 * 2) = .ok (.jnz .immediate .relative) := by
  decide

theorem test_decode_jz : decodeWord Config.spec (6 + 100 * 1 + 1000 * 2) = .ok (.jz .immediate .relative) := by
  decide

theorem test_decode_lt : decodeWord Config.spec (7 + 100 * 1 + 1000 * 2 + 10000 * 0) =
    .ok (.lt .immediate .relative .position) := by
  decide

theorem test_decode_eq : decodeWord Config.spec (8 + 100 * 2 + 1000 * 1 + 10000 * 0) =
    .ok (.eq .relative .immediate .position) := by
  decide

theorem test_decode_arb : decodeWord Config.spec (9 + 100 * 2) = .ok (.arb .relative) := by decide

theorem test_decode_hlt : decodeWord Config.spec 99 = .ok .hlt := by decide

/-- D5: surplus digits are ignored. -/
theorem test_decode_surplus : decodeWord Config.spec 1000099 = .ok .hlt ∧
    decodeWord Config.spec 100001 = .ok (.add .position .position .position) ∧
    decodeWord Config.spec 20003 = .ok (.inp .position) ∧ decodeWord Config.spec 10104 = .ok (.out .immediate) := by
  decide

/-- The rejected words of 95 section 2.1, each under its own name. -/
theorem test_decode_rejects : decodeWord Config.spec 0 = .error (.invalidOpcode 0) ∧
    decodeWord Config.spec 10300 = .error (.invalidOpcode 10300) ∧
    decodeWord Config.spec (-1) = .error (.invalidOpcode (-1)) ∧
    decodeWord Config.spec 103 = .error (.writeImmediate 103) ∧
    decodeWord Config.spec 11107 = .error (.writeImmediate 11107) ∧
    decodeWord Config.spec 10301 = .error (.invalidMode 10301) ∧
    decodeWord Config.spec 905 = .error (.invalidMode 905) := by
  decide

/-- With STRICT_DIGITS the rows marked D5 are `InvalidMode(w)`. -/
theorem test_decode_strict :
    decodeWord { Config.spec with strictDigits := true } 199 = .error (.invalidMode 199) ∧
    decodeWord { Config.spec with strictDigits := true } 21101 = .ok (.add .immediate .immediate .relative) := by
  decide

/-- The encoder on the words of 95 section 2.1. -/
theorem test_encode : encode (.add (.immediate (-5)) (.immediate 6) (.relative 7)) = [21101, -5, 6, 7] ∧
    encode (.inp (.relative 1)) = [203, 1] ∧ encode .hlt = [99] := by
  decide

/-- A table word is decoded as a decimal number, whatever its width in bits. -/
theorem test_decodeTableWord : decodeTableWord 8 99 = some .hlt ∧
    decodeTableWord 16 1105 = some (.jnz (.immediate 0) (.immediate 0)) ∧ decodeTableWord 16 100 = none := by
  decide

/-- A word put where the next step fetches it is the instruction the next step runs: HLT. -/
theorem test_withFetchWord : (after (State.reset.withFetchWord 8 99)).map (fun t => (t.runState, t.pc)) =
    some (.halted, 1) := by
  decide

/-! ## One step of each instruction, from 95_test_vectors.md -/

/-- A4. -/
theorem test_add_alias : (after (boot [1, 5, 5, 5, 99, 21] [])).map (fun t => (t.mem.read 5, t.pc)) =
    some (42, 4) := by
  decide

/-- A3: no wrap at 2^63. -/
theorem test_add_exact : (after (boot [1101, 9223372036854775807, 1, 5, 99, 0] [])).map (fun t => t.mem.read 5) =
    some 9223372036854775808 := by
  decide

/-- M4: no wrap at 2^64. -/
theorem test_mul_exact : (after (boot [1102, 4294967296, 4294967296, 5, 99, 0] [])).map (fun t => t.mem.read 5) =
    some 18446744073709551616 := by
  decide

/-- M2. -/
theorem test_mul_signs : (after (boot [1102, -3, -4, 5, 99, 0] [])).map (fun t => (t.mem.read 5, t.pc)) =
    some (12, 4) := by
  decide

/-- I3: the input overwrites the IN itself. -/
theorem test_in_stores : (after (boot [3, 0, 99] [99])).map (fun t => (t.mem.read 0, t.pc, t.src)) =
    some (99, 2, .queue []) := by
  decide

/-- I5: a negative address faults before the input is taken. -/
theorem test_in_negative : (after (boot [3, -1, 99] [5])).map (fun t => (t.fault, t.pc, t.src)) =
    some (some ⟨.addressError, -1⟩, 0, .queue [5]) := by
  decide

/-- O2. -/
theorem test_out_immediate : (after (boot [104, -7, 99] [])).map (fun t => (t.out, t.pc, t.runState)) =
    some (some (-7), 2, .producedOutput) := by
  decide

/-- O4: a cell that nothing wrote reads 0. -/
theorem test_out_unwritten : (after (boot [4, 100, 99] [])).map (fun t => t.out) = some (some 0) := by decide

/-- J8: the negative target of an untaken jump is harmless. -/
theorem test_jnz_untaken : (after (boot [1105, 0, -4, 99] [])).map (fun t => (t.pc, t.fault)) = some (3, none) := by
  decide

/-- J6: the operands of an untaken jump are resolved all the same. -/
theorem test_jnz_resolves : (after (boot [5, 5, -1, 99, 0, 0] [])).map (fun t => (t.pc, t.fault)) =
    some (0, some ⟨.addressError, -1⟩) := by
  decide

/-- J4. -/
theorem test_jz_taken : (after (boot [1106, 0, 4, 99, 104, 7, 99] [])).map (fun t => t.pc) = some 4 := by decide

/-- J13: a taken jump to a negative target faults at the jump. -/
theorem test_jz_negative : (after (boot [1106, 0, -4, 99] [])).map (fun t => (t.pc, t.fault)) =
    some (0, some ⟨.addressError, -4⟩) := by
  decide

/-- CMP5: the order is signed. -/
theorem test_lt_signed : (after (boot [1107, -1, 0, 5, 99, -1] [])).map (fun t => t.mem.read 5) = some 1 := by decide

/-- CMP6: nothing is truncated. -/
theorem test_lt_wide : (after (boot [1107, 18446744073709551616, 18446744073709551617, 5, 99, -1] [])).map
    (fun t => t.mem.read 5) = some 1 := by
  decide

/-- CMP10: 2^64 is not 0. -/
theorem test_eq_wide : (after (boot [1108, 18446744073709551616, 0, 5, 99, -1] [])).map (fun t => t.mem.read 5) =
    some 0 := by
  decide

/-- CMP12: the result overwrites the EQ's own opcode word. -/
theorem test_eq_self : (after (boot [8, 5, 6, 0, 99, 4, 4] [])).map (fun t => (t.mem.read 0, t.pc)) = some (1, 4) := by
  decide

/-- RB4, second step: the operand is read with the old base. -/
theorem test_arb_old_base : (after { boot [109, 5, 209, 0, 99, 37] [] with pc := 2, rb := 5 }).map
    (fun t => (t.rb, t.pc)) = some (42, 4) := by
  decide

/-- RB2: a negative base is legal. -/
theorem test_arb_negative : (after (boot [109, -7, 99] [])).map (fun t => (t.rb, t.runState)) =
    some (-7, .running) := by
  decide

/-- C8: `pc` ends past the HLT. -/
theorem test_hlt_pc : (after { boot [1, 0, 0, 0, 99] [] with pc := 4 }).map (fun t => (t.pc, t.runState)) =
    some (5, .halted) := by
  decide

/-! ## Faults, memory, transactions, text -/

/-- A8: the fault leaves everything else as it was (R159). -/
theorem test_fault_precise : after (boot [1, -1, 0, 0, 99] []) =
    some ((boot [1, -1, 0, 0, 99] []).raise ⟨.addressError, -1⟩) := by
  decide

/-- The codes of R17 and R150. -/
theorem test_codes : [RunState.running, .awaitingInput, .producedOutput, .halted, .faulted].map RunState.code =
      [0, 1, 2, 3, 4] ∧
    [Fault.invalidOpcode, .writeImmediate, .invalidMode, .addressError, .inputStarvation, .rangeError,
      .capacityError].map Fault.code = [1, 2, 3, 4, 5, 6, 7] := by
  decide

/-- Memory is one list per content: writing 0 unlists a cell, the order of writes does not show. -/
theorem test_mem_canonical : (Mem.write [(3, 9)] 3 0) = [] ∧
    (Mem.write (Mem.write [] 5 1) 2 7) = Mem.write (Mem.write [] 2 7) 5 1 ∧
    Mem.wf (Mem.write (Mem.write [] 5 1) 2 7) = true ∧ Mem.wf [(2, 7), (2, 8)] = false ∧ Mem.wf [(2, 0)] = false := by
  decide

/-- I8 and I7: without input an interactive transaction reports NeedInput, drain mode faults. -/
theorem test_starvation : (resume 1 (.queue []) false (State.reset.construct [3, 0, 99])).map (fun r => (r.1, r.2.pc)) =
      some (.needInput, 0) ∧
    (run 1 1 [] (State.reset.construct [3, 0, 99])).map (fun r => (r.1, r.2.1)) =
      some (.fault ⟨.inputStarvation, 0⟩, []) := by
  decide

/-- O6: each OUT ends a transaction; `Run` collects the outputs in order. -/
theorem test_run_outputs : (run 2 3 [] (State.reset.construct [104, 1, 104, 2, 99])).map
    (fun r => (r.1, r.2.1, r.2.2.pc)) = some (.halted, [1, 2], 5) := by
  decide

/-- A program comes to run from reset by two host moves: construction and the first Resume. -/
theorem test_from_reset : (nextOf (steps 3 { State.reset with moves := [.construct [99], .resume false] })).map
    (fun t => (t.runState, t.pc, t.moves)) = some (.halted, 1, []) := by
  decide

/-- R66: white space around the list, signs, leading zeros; refused: empty text, a trailing comma, inner white space,
a plus sign. -/
theorem test_loadText : loadText [' ', '1', ',', '-', '0', '2', '\n'] = some [1, -2] ∧ loadText [] = none ∧
    loadText ['1', ','] = none ∧ loadText ['1', ' ', ',', '2'] = none ∧ loadText ['+', '1'] = none ∧
    imageText [1, -20] = ['1', ',', '-', '2', '0'] := by
  decide

/-- The bytes of `1,-2` and a line feed; a byte order mark is refused. -/
theorem test_loadBytes : loadBytes [49, 44, 45, 50, 10] = some [1, -2] ∧ loadBytes [0xEF, 0xBB, 0xBF, 49] = none := by
  decide

/-- R64: `ADD [5], #3 -> [rb+7]` is 21001,5,3,7. -/
theorem test_assemble : assembleText
    [['A', 'D', 'D', ' ', '[', '5', ']', ',', ' ', '#', '3', ' ', '-', '>', ' ', '[', 'r', 'b', '+', '7', ']']] =
      some [21001, 5, 3, 7] := by
  decide

/-- R64: a wrong address annotation is refused, DATA puts cells, a comment is nothing. -/
theorem test_assemble_lines : assembleText [['H', 'L', 'T'], ['1', ':', ' ', 'D', 'A', 'T', 'A', ' ', '-', '2', ',', '3'],
      [';', 'x']] = some [99, -2, 3] ∧ assembleText [['2', ':', 'H', 'L', 'T']] = none := by
  decide

/-! ## Witnesses: for each obligation with hypotheses, states and operands that meet them -/

/-- A cell inside the image, the last one, the first one after it; no move, and a Resume to come. -/
theorem witness_ConstructionLoadsImage :
    ([7, 8] : Image)[0]? = some 7 ∧ ([7, 8] : Image)[1]? = some 8 ∧ ([7, 8] : Image).length ≤ 2 ∧
    State.reset.moves = [] ∧ { State.reset with moves := [.resume true] }.moves = HostMove.resume true :: [] := by
  decide

theorem witness_DecodedWordIsCanonical :
    decodeWord Config.spec 11104 = .ok (.out .immediate) ∧
    decodeWord Config.spec 22202 = .ok (.mul .relative .relative .relative) := by
  decide

/-- The right side at its bounds (digits 2, and 0 on a write parameter), and an error of each kind. -/
theorem witness_LegalOpcodeWords :
    (arityTable.lookup (22202 % 100 : Int).toNat = some (3, 1) ∧ digit 22202 2 ≤ 2 ∧ digit 22202 3 ≤ 2 ∧
      digit 22202 4 ≤ 2 ∧ digit 22202 4 ≠ 1) ∧
    decodeWord Config.spec 10 = .error (.invalidOpcode 10) ∧ decodeWord Config.spec 301 = .error (.invalidMode 301) ∧
    decodeWord Config.spec 103 = .error (.writeImmediate 103) := by
  decide

/-- The greatest negative word, and the words 0, 10 and 98 at the ends of the unknown opcodes. -/
theorem witness_UnknownOpcodeFaults :
    (boot [-1] []).inTransaction = true ∧ (boot [-1] []).mem.read 0 < 0 ∧
    arityTable.lookup ((boot [] []).mem.read 0 % 100).toNat = none ∧
    arityTable.lookup ((boot [10] []).mem.read 0 % 100).toNat = none ∧
    arityTable.lookup ((boot [98] []).mem.read 0 % 100).toNat = none := by
  decide

/-- A digit of exactly 3, on the first parameter and on the last. -/
theorem witness_BadModeDigitFaults :
    ((boot [301] []).inTransaction = true ∧ 0 ≤ (boot [301] []).mem.read 0 ∧
      arityTable.lookup ((boot [301] []).mem.read 0 % 100).toNat = some (3, 1) ∧
      2 < digit ((boot [301] []).mem.read 0).toNat 2) ∧
    (arityTable.lookup ((boot [31101] []).mem.read 0 % 100).toNat = some (3, 1) ∧
      2 < digit ((boot [31101] []).mem.read 0).toNat 4) := by
  decide

/-- A write parameter alone (k = 1), and after two read parameters (k = 3). -/
theorem witness_ImmediateWriteFaults :
    ((boot [103] [5]).inTransaction = true ∧ arityTable.lookup ((boot [103] [5]).mem.read 0 % 100).toNat = some (1, 1) ∧
      digit ((boot [103] [5]).mem.read 0).toNat 2 = 1) ∧
    (arityTable.lookup ((boot [12201] []).mem.read 0 % 100).toNat = some (3, 1) ∧
      digit ((boot [12201] []).mem.read 0).toNat 2 ≤ 2 ∧ digit ((boot [12201] []).mem.read 0).toNat 3 ≤ 2 ∧
      digit ((boot [12201] []).mem.read 0).toNat 4 = 1) := by
  decide

/-- A word with one surplus digit and one without, in a variant with STRICT_DIGITS. -/
theorem witness_SurplusDigitsIgnored :
    arityTable.lookup (1203 % 100 : Int).toNat = some (1, 1) ∧ (1203 : Int) ≠ 1203 % 10 ^ (1 + 2) ∧
    decodeWord Config.spec 1203 ≠ .error (.writeImmediate 1203) ∧
    arityTable.lookup (203 % 100 : Int).toNat = some (1, 1) ∧ (203 : Int) = 203 % 10 ^ (1 + 2) ∧
    { Config.spec with strictDigits := true }.strictDigits = true := by
  decide

theorem witness_StepRunsDecodedInstruction :
    (boot [1101, 2, 3, 0] []).inTransaction = true ∧
    decodeWord Config.spec ((boot [1101, 2, 3, 0] []).mem.read 0) = .ok (.add .immediate .immediate .position) := by
  decide

/-- The clauses of the two resolvers at the addresses -1 and 0, also through a negative base. -/
theorem witness_ReadOperandByMode :
    readOperand Config.spec (boot [7] []) (.position (-1)) = .error ⟨.addressError, -1⟩ ∧
    readOperand Config.spec (boot [7] []) (.position 0) = .ok 7 ∧
    readOperand Config.spec { boot [7] [] with rb := -3 } (.relative 2) = .error ⟨.addressError, -1⟩ ∧
    readOperand Config.spec { boot [7] [] with rb := -3 } (.relative 3) = .ok 7 := by
  decide

theorem witness_WriteAddressByMode :
    writeAddr Config.spec (boot [7] []) (.position (-1)) = .error ⟨.addressError, -1⟩ ∧
    writeAddr Config.spec (boot [7] []) (.position 0) = .ok 0 ∧
    writeAddr Config.spec { boot [7] [] with rb := -3 } (.relative 2) = .error ⟨.addressError, -1⟩ ∧
    writeAddr Config.spec { boot [7] [] with rb := -3 } (.relative 3) = .ok 0 := by
  decide

/-- The second source and the destination are negative: the source is the one reported. -/
theorem witness_FirstNegativeAddressFaults :
    (addresses (boot [] []) (.add (.position 0) (.position (-1)) (.position (-2)))).find? (fun y => decide (y < 0)) =
      some (-1) := by
  decide

/-- One state for each place of the list, and one without a fault. -/
theorem witness_FaultsOfAStep :
    ((boot [-1] []).inTransaction = true ∧ (after (boot [-1] [])).isSome = true ∧
      firstFault (boot [-1] []) = some ⟨.invalidOpcode, -1⟩) ∧
    firstFault (boot [10301] []) = some ⟨.invalidMode, 10301⟩ ∧
    firstFault (boot [103] []) = some ⟨.writeImmediate, 103⟩ ∧
    firstFault (boot [1, 0, -2, -3] []) = some ⟨.addressError, -2⟩ ∧
    firstFault (boot [1105, 1, -4, 99] []) = some ⟨.addressError, -4⟩ ∧
    firstFault (bootDrain [3, 0] []) = some ⟨.inputStarvation, 0⟩ ∧
    firstFault (boot [3, 0] []) = none := by
  decide

/-- A taken jump to 0, an instruction that advances, an IN without input, and a running state that faults. -/
theorem witness_PcOfEveryInstruction :
    (Resolvable (boot [] []) (.jnz (.immediate 1) (.immediate 0)) ∧
      jumpTaken (.jnz (.immediate 1) (.immediate 0)) (boot [] []) = true ∧
      0 ≤ jumpTarget (.jnz (.immediate 1) (.immediate 0)) (boot [] [])) ∧
    (Resolvable (boot [] [5]) (.inp (.position 0)) ∧ jumpTaken (.inp (.position 0)) (boot [] [5]) = false ∧
      (boot [] [5]).src.pull ≠ none) ∧
    ((boot [] []).src.pull = none ∧ nextOf (exec (.inp (.position 0)) (boot [] [])) =
      some { boot [] [] with runState := .awaitingInput }) ∧
    ((boot [4, -1] []).inTransaction = true ∧ (after (boot [4, -1] [])).map (fun t => t.runState) = some .faulted) :=
  ⟨⟨resolvable_of (by decide), by decide, by decide⟩, ⟨resolvable_of (by decide), by decide, by decide⟩, by decide,
    by decide⟩

/-- A next state of a storing form, a cell beside the stored one, and a next state of a form that stores nothing. -/
theorem witness_InstructionFrame :
    (nextOf (exec (.add (.immediate 1) (.immediate 2) (.position 0)) (boot [] []))).isSome = true ∧
    dstAddr (boot [] []) (.position 0) ≠ ((1 : Nat) : Int) ∧ (Instr.out (.immediate 1)).dest = none ∧
    (nextOf (exec (.out (.immediate 1)) (boot [] []))).map (fun t => t.runState) = some .producedOutput ∧
    (nextOf (exec (.arb (.position (-1))) (boot [] []))).map (fun t => t.fault) =
      some (some ⟨.addressError, -1⟩) := by
  decide

/-- Six cells read, one cell changed. -/
theorem witness_AccessCounts :
    (cellsRead (boot [] []) (.mul (.position 0) (.position 1) (.position 2))).length = 6 ∧
    (cellsRead (boot [] []) .hlt).length = 1 ∧
    (nextOf (exec (.add (.immediate 1) (.immediate 2) (.position 0)) (boot [] []))).map (fun t => t.mem.read 0) ≠
      some ((boot [] []).mem.read 0) := by
  decide

/-- Operands that exist, address 0 among them and a relative one with a negative base. -/
theorem witness_AddStoresSum :
    Resolvable { boot [] [] with rb := -4 } (.add (.position 0) (.relative 4) (.relative 5)) :=
  resolvable_of (by decide)

theorem witness_MulStoresProduct :
    Resolvable { boot [] [] with rb := -4 } (.mul (.immediate (-1)) (.relative 4) (.position 0)) :=
  resolvable_of (by decide)

theorem witness_LtStoresTruth :
    Resolvable (boot [] []) (.lt (.immediate (-1)) (.position 0) (.position 0)) :=
  resolvable_of (by decide)

theorem witness_EqStoresTruth :
    Resolvable (boot [] []) (.eq (.position 0) (.position 1) (.relative 0)) :=
  resolvable_of (by decide)

theorem witness_InStoresInput :
    Resolvable (boot [] [5]) (.inp (.position 0)) ∧ (boot [] [5]).src.pull = some (5, .queue []) :=
  ⟨resolvable_of (by decide), by decide⟩

/-- Both policies. -/
theorem witness_InWithoutInput :
    (Resolvable (boot [] []) (.inp (.position 0)) ∧ (boot [] []).src.pull = none ∧
      (boot [] []).starveFault = false) ∧
    (Resolvable (bootDrain [] []) (.inp (.relative 0)) ∧ (bootDrain [] []).src.pull = none ∧
      (bootDrain [] []).starveFault = true) :=
  ⟨⟨resolvable_of (by decide), by decide, by decide⟩, resolvable_of (by decide), by decide, by decide⟩

theorem witness_OutEmitsValue : Resolvable (boot [] []) (.out (.position 0)) :=
  resolvable_of (by decide)

/-- Taken to 0, taken to -1, not taken with a negative target. -/
theorem witness_JnzJumps :
    (Resolvable (boot [] []) (.jnz (.immediate (-1)) (.position 0)) ∧
      value (boot [] []) (.immediate (-1)) ≠ 0 ∧ 0 ≤ value (boot [] []) (.position 0)) ∧
    (Resolvable (boot [] []) (.jnz (.immediate 1) (.immediate (-1))) ∧
      value (boot [] []) (.immediate 1) ≠ 0 ∧ value (boot [] []) (.immediate (-1)) < 0) ∧
    (Resolvable (boot [] []) (.jnz (.position 0) (.immediate (-1))) ∧ value (boot [] []) (.position 0) = 0) :=
  ⟨⟨resolvable_of (by decide), by decide, by decide⟩, ⟨resolvable_of (by decide), by decide, by decide⟩,
    resolvable_of (by decide), by decide⟩

theorem witness_JzJumps :
    (Resolvable (boot [] []) (.jz (.position 0) (.position 0)) ∧
      value (boot [] []) (.position 0) = 0 ∧ 0 ≤ value (boot [] []) (.position 0)) ∧
    (Resolvable (boot [] []) (.jz (.immediate 0) (.immediate (-1))) ∧
      value (boot [] []) (.immediate 0) = 0 ∧ value (boot [] []) (.immediate (-1)) < 0) ∧
    (Resolvable (boot [] []) (.jz (.immediate (-1)) (.immediate (-1))) ∧ value (boot [] []) (.immediate (-1)) ≠ 0) :=
  ⟨⟨resolvable_of (by decide), by decide, by decide⟩, ⟨resolvable_of (by decide), by decide, by decide⟩,
    resolvable_of (by decide), by decide⟩

theorem witness_ArbAddsToBase : Resolvable { boot [] [] with rb := -4 } (.arb (.relative 4)) :=
  resolvable_of (by decide)

theorem witness_PseudoInstructionIdioms :
    Resolvable (boot [] []) (.add (.position 0) (.immediate 0) (.position 0)) :=
  resolvable_of (by decide)

/-- The ADD at 0 writes 99 into cell 4, the next opcode word. -/
theorem witness_StoreSeenByNextFetch :
    (boot [1101, 44, 55, 4] []).inTransaction = true ∧
    Resolvable (boot [1101, 44, 55, 4] []) (.add (.immediate 44) (.immediate 55) (.position 4)) ∧
    dstAddr (boot [1101, 44, 55, 4] []) (.position 4) = (((boot [1101, 44, 55, 4] []).pc + 4 : Nat) : Int) ∧
    decodeWord Config.spec (value (boot [1101, 44, 55, 4] []) (.immediate 44) +
      value (boot [1101, 44, 55, 4] []) (.immediate 55)) = .ok .hlt :=
  ⟨by decide, resolvable_of (by decide), by decide, by decide⟩

/-- A running state, and a faulted one, that meet the invariant and have a next state. -/
theorem witness_StepKeepsInvariant :
    (Inv (boot [104, 5] []) ∧ (after (boot [104, 5] [])).isSome = true) ∧
    Inv ((boot [104, 5] []).raise ⟨.addressError, -1⟩) :=
  ⟨⟨⟨by decide, by decide, by decide, by decide⟩, by decide⟩, ⟨by decide, by decide, by decide, by decide⟩⟩

/-- Each of the listed events changes the run state. -/
theorem witness_RunStateChangesOnlyByListedEvents :
    (after (boot [] [])).map (fun t => t.runState) = some .faulted ∧
    (after (boot [104, 5] [])).map (fun t => t.runState) = some .producedOutput ∧
    (after (boot [99] [])).map (fun t => t.runState) = some .halted ∧
    (after (boot [3, 0] [])).map (fun t => t.runState) = some .awaitingInput ∧
    (after { State.reset with runState := .halted, started := true, moves := [.construct [99]] }).map
      (fun t => t.runState) = some .running ∧
    (after { State.reset with runState := .awaitingInput, started := true, moves := [.resume false] }).map
      (fun t => t.runState) = some .running := by
  decide

/-- Another memory that agrees on the cells the step reads and differs elsewhere. -/
theorem witness_StepDependsOnlyOnCellsRead :
    (∀ a ∈ stepReads (boot [104, 5, 6] []), Mem.read [(0, 104), (1, 5), (2, 7)] a =
      (boot [104, 5, 6] []).mem.read a) ∧
    Mem.read [(0, 104), (1, 5), (2, 7)] 2 ≠ (boot [104, 5, 6] []).mem.read 2 := by
  decide

theorem witness_StepIgnoresOutputAndHost :
    (boot [4, 0] []).inTransaction = true ∧
    { boot [4, 0] [] with out := some 3, moves := [.resume true] }.inTransaction = true := by
  decide

/-- A halted instance and a faulted one. -/
theorem witness_TerminalResumeIsNoOp :
    { State.reset with runState := .halted }.runState = .halted ∧
    ((boot [] []).raise ⟨.invalidOpcode, 0⟩).runState = .faulted ∧
    ((boot [] []).raise ⟨.invalidOpcode, 0⟩).fault = some ⟨.invalidOpcode, 0⟩ := by
  decide

/-- States outside a transaction with no move, each move, and a Resume of a terminal state. -/
theorem witness_HostMovesBetweenTransactions :
    (State.reset.inTransaction = false ∧ State.reset.moves = []) ∧
    { State.reset with moves := [.construct [99]] }.moves = HostMove.construct [99] :: [] ∧
    { State.reset with moves := [.install (.callable 0 0)] }.moves = HostMove.install (.callable 0 0) :: [] ∧
    ({ State.reset with moves := [.resume true] }.inTransaction = false ∧
      { State.reset with moves := [.resume true] }.runState ≠ .halted ∧
      { State.reset with moves := [.resume true] }.runState ≠ .faulted) ∧
    ({ State.reset with runState := .halted, moves := [.resume true] }.inTransaction = false ∧
      { State.reset with runState := .halted, moves := [.resume true] }.runState = .halted) := by
  decide

theorem witness_AwaitingInputRetries :
    fetchInstr { boot [3, 0] [] with runState := .awaitingInput } = .ok (.inp (.position 0)) ∧
    Resolvable { boot [3, 0] [] with runState := .awaitingInput } (.inp (.position 0)) ∧
    (boot [3, 0] []).src = .queue [] ∧ (boot [3, 0] []).starveFault = false ∧ (boot [3, 0] []).started = true :=
  ⟨by decide, resolvable_of (by decide), by decide, by decide, by decide⟩

theorem witness_MoreFuelSameReport :
    (resume 1 (.queue []) false (State.reset.construct [104, 5])).map (fun r => r.1) = some (.output 5) := by
  decide

theorem witness_ResumeIsStepping :
    (State.reset.construct [104, 5]).inTransaction = false ∧ (State.reset.construct [104, 5]).runState ≠ .halted ∧
    (State.reset.construct [104, 5]).runState ≠ .faulted ∧
    (resume 1 (.queue []) false (State.reset.construct [104, 5])).isSome = true := by
  decide

theorem witness_ResumeReportsItsState :
    (resume 1 (.queue []) true (State.reset.construct [3, 0])).map (fun r => r.1) =
      some (.fault ⟨.inputStarvation, 0⟩) ∧
    (resume 1 (.queue []) false (State.reset.construct [3, 0])).map (fun r => r.1) = some .needInput := by
  decide

/-- A transaction that reports a value, and one that reports something else. -/
theorem witness_DrainCollectsOutputsInOrder :
    (resume 1 (.queue []) true (State.reset.construct [104, 5, 99])).map (fun r => r.1) = some (.output 5) ∧
    (resume 1 (.queue []) true (State.reset.construct [99])).map (fun r => r.1) = some .halted := by
  decide

/-- A drain that ends halted and one that ends faulted. -/
theorem witness_DrainEndsHaltedOrFaulted :
    (run 2 2 [] (State.reset.construct [104, 5, 99])).map (fun r => (r.1, r.2.1)) = some (.halted, [5]) ∧
    (run 2 2 [] (State.reset.construct [104, 5])).map (fun r => (r.1, r.2.1)) =
      some (.fault ⟨.invalidOpcode, 0⟩, [5]) := by
  decide

theorem witness_InstancesAreIsolated :
    (Instances.stepAt [boot [99] [], boot [99] []] 0)[1]? = some (boot [99] []) ∧
    (Instances.stepAt [boot [99] [], boot [99] []] 0)[0]? ≠ some (boot [99] []) := by
  decide

/-- A store of two cells, the second of them 0, and the memory it shows. -/
theorem witness_GrowingStoreShowsMemory : Store.Shows ⟨[7, 0]⟩ [(0, 7)] := by
  intro a
  match a with
  | 0 => rfl
  | 1 => rfl
  | n + 2 => rfl

/-- An access just inside the extent and one at it; the last cell there was, the first new one. -/
theorem witness_GrowthKeepsCells :
    (Store.reach ⟨[7, 8]⟩ 1 0) = ⟨[7, 8]⟩ ∧ (Store.reach ⟨[7, 8]⟩ 2 0) = ⟨[7, 8, 0]⟩ ∧
    (Store.reach ⟨[7, 8]⟩ 2 1) = ⟨[7, 8, 0, 0]⟩ := by
  decide

/-- A variant that agrees (2^63 - 1 fits) and one step on takes a RangeError (2^63 does not; A3 with W = 64). -/
theorem witness_BoundedVariantAgrees :
    w64.strictDigits = false ∧
    nextOf (stepWith w64 (boot [1101, 9223372036854775806, 1, 5, 99, 0] [])) =
      after (boot [1101, 9223372036854775806, 1, 5, 99, 0] []) ∧
    (nextOf (stepWith w64 (boot [1101, 9223372036854775807, 1, 5, 99, 0] []))).map (fun t => t.fault) =
      some (some ⟨.rangeError, 0⟩) := by
  decide

theorem witness_BoundedVariantKeepsWidth :
    FitsAll w64 (boot [104, 9223372036854775807] []) ∧
    (nextOf (stepWith w64 (boot [104, 9223372036854775807] []))).isSome = true := by
  refine ⟨⟨?_, by decide, by decide, ?_⟩, by decide⟩
  · intro a
    match a with
    | 0 => decide
    | 1 => decide
    | n + 2 =>
      show w64.fits ((Mem.load [] 0 [104, 9223372036854775807]).read (n + 2)) = true
      rw [Mem.read_load, if_neg (by simp)]
      exact (by decide : w64.fits 0 = true)
  · intro v h
    cases h

/-- The greatest address of 64 bits, where a HLT's advance is the first sum that does not fit: the unbounded machine
steps out of the width. One cell below it the advance fits. An image with 2^63 is one that does not fit. -/
theorem witness_RangeErrorWhereWidthIsLeft :
    FitsAll w64 top ∧ (top.inTransaction = true ∧ (after top).map (fun t => w64.fits t.pc) = some false) ∧
    (State.reset.inTransaction = false ∧ ∃ v ∈ [99, 9223372036854775808], w64.fits v = false) := by
  refine ⟨⟨?_, by decide, by decide, ?_⟩, by decide, by decide⟩
  · intro a
    show w64.fits (if a = 9223372036854775807 then 99 else 0) = true
    split <;> decide
  · intro v h
    cases h

/-- At the greatest address of 64 bits HLT takes RangeError there and nothing else; so does a taken jump, whose parameter
words have no address; one cell lower the HLT completes. -/
theorem test_advance_width : nextOf (stepWith w64 top) = some (top.raise ⟨.rangeError, 9223372036854775807⟩) ∧
    (nextOf (stepWith w64 { top with mem := [(9223372036854775807, 1105)] })).map (fun t => t.fault) =
      some (some ⟨.rangeError, 9223372036854775807⟩) ∧
    (nextOf (stepWith w64 { top with mem := [(9223372036854775806, 99)], pc := 9223372036854775806 })).map
      (fun t => (t.runState, t.pc)) = some (.halted, 9223372036854775807) := by
  decide

theorem witness_WellFormedCellsFit :
    w64.Legal ∧ WellFormed w64 (.out (.immediate 9223372036854775807)) = true :=
  ⟨by intro W h; simp [w64] at h; omega, by decide⟩

theorem witness_ProgramTextLoadsImage :
    ([-1, 10] : Image) ≠ [] ∧ (∀ ch ∈ [' ', '\t'], isWs ch = true) ∧ (∀ ch ∈ ['\r', '\n'], isWs ch = true) := by
  simp [isWs]

end Sys2Proof.Tests
end

section
/-!
PROOFS. The new `pc` of every instruction (spec 10_state.md R13). A step ends FAULTED only by a `raise`, which keeps
`pc`; where an instruction completes, `pc` is read off the law of its shared operation.
-/
namespace Sys2Proof.Machine

open Sys2Proof.Safety

/-- The inversion of `bind_ok`: where a whole effect passes, so does its first check. -/
theorem ok_of_bind_ok {α β : Type} {r : Except FaultRecord α} {k : α → Except FaultRecord β} {b : β}
    (h : (r >>= k) = .ok b) : ∃ a, r = .ok a ∧ k a = .ok b := by
  cases r with
  | error f => cases h
  | ok a => exact ⟨a, rfl, h⟩

/-- A read parameter that resolves has an address that exists, or none (R74). -/
theorem srcAddr_nonneg_of_readOperand_ok {s : State} {a : Src} {v : Int}
    (h : readOperand Config.spec s a = .ok v) : ∀ x, srcAddr s a = some x → 0 ≤ x := by
  rcases readOperand_cases s a with ⟨-, hx⟩ | ⟨x, -, -, hf⟩
  · exact hx
  · rw [hf] at h
    cases h

/-! ## The state after an effect that takes no fault -/

theorem computeWith_ok_runState {f : Int → Int → Int} {a b : Src} {d : Dst} {s t : State}
    (h : computeWith Config.spec f a b d s = .ok t) : t.runState = s.runState := by
  rcases computeWith_cases f a b d s with ⟨-, -, -, hc⟩ | ⟨x, -, hc⟩ <;> rw [hc] at h <;> cases h
  rfl

theorem jumpWith_ok_runState {taken : Int → Bool} {a b : Src} {s t : State}
    (h : jumpWith Config.spec taken a b s = .ok t) : t.runState = s.runState := by
  obtain ⟨_, ha, h'⟩ := ok_of_bind_ok h
  obtain ⟨_, hb, -⟩ := ok_of_bind_ok h'
  rw [jumpWith_ok taken (srcAddr_nonneg_of_readOperand_ok ha) (srcAddr_nonneg_of_readOperand_ok hb)] at h
  split at h
  · split at h <;> cases h
    rfl
  · cases h
    rfl

theorem outWith_ok_runState {a : Src} {s t : State} (h : outWith Config.spec a s = .ok t) :
    t.runState = .producedOutput := by
  obtain ⟨_, ha, -⟩ := ok_of_bind_ok h
  rw [outWith_ok (srcAddr_nonneg_of_readOperand_ok ha)] at h
  cases h
  rfl

theorem arbWith_ok_runState {a : Src} {s t : State} (h : arbWith Config.spec a s = .ok t) :
    t.runState = s.runState := by
  obtain ⟨_, ha, -⟩ := ok_of_bind_ok h
  rw [arbWith_ok (srcAddr_nonneg_of_readOperand_ok ha)] at h
  cases h
  rfl

/-- An IN that does not fault has an address that exists (R75). -/
theorem dstAddr_nonneg_of_inWith_ok {d : Dst} {s t : State} (h : inWith Config.spec d s = .ok t) :
    0 ≤ dstAddr s d := by
  obtain ⟨_, hd, -⟩ := ok_of_bind_ok h
  by_contra hneg
  rw [writeAddr_spec, if_pos (by omega)] at hd
  cases hd

/-- An IN that finds no input and does not fault only waits (R95). -/
theorem inWith_ok_of_pull_none {d : Dst} {s t : State} (hp : s.src.pull = none)
    (h : inWith Config.spec d s = .ok t) : t = { s with runState := .awaitingInput } := by
  rw [inWith_ok (dstAddr_nonneg_of_inWith_ok h), hp] at h
  dsimp only at h
  split at h <;> cases h
  rfl

/-- An IN that finds its input stores it and stays in its run state (R95). -/
theorem inWith_ok_of_pull_some {d : Dst} {s t : State} {v : Int} {rest : Source} (hp : s.src.pull = some (v, rest))
    (h : inWith Config.spec d s = .ok t) :
    t = { (s.store (dstAddr s d).toNat v).setPc (s.pc + 2) with src := rest } := by
  rw [inWith_ok (dstAddr_nonneg_of_inWith_ok h), hp] at h
  cases h
  rfl

/-- An instruction that takes no fault does not make the run state FAULTED (R79). -/
theorem effectWith_ok_not_faulted {i : Instr} {s t : State} (hs : s.runState ≠ .faulted)
    (h : effectWith Config.spec i s = .ok t) : t.runState ≠ .faulted := by
  cases i with
  | add a b d | mul a b d | lt a b d | eq a b d => rwa [computeWith_ok_runState h]
  | jnz a b | jz a b => rwa [jumpWith_ok_runState h]
  | arb a => rwa [arbWith_ok_runState h]
  | out a => simp [outWith_ok_runState h]
  | hlt =>
    cases h
    simp
  | inp d =>
    cases hp : s.src.pull with
    | none => simp [inWith_ok_of_pull_none hp h]
    | some r => simpa [inWith_ok_of_pull_some hp h] using hs

/-- A step that ends FAULTED took a fault, and in the state it began in (R159). -/
theorem step_faulted_eq_raise {s t : State} (hs : s.inTransaction = true) (h : step s = .next t)
    (ht : t.runState = .faulted) : ∃ f, t = s.raise f := by
  rw [step_of_inTransaction hs, cycle_eq_settle] at h
  rcases settle_cases h with hok | ⟨f, -, rfl⟩
  · obtain ⟨i, -, hi⟩ := ok_of_bind_ok hok
    have hrun : s.runState ≠ .faulted := by simp [((State.inTransaction_iff s).1 hs).1]
    exact absurd ht (effectWith_ok_not_faulted hrun hi)
  · exact ⟨f, rfl⟩

/-! ## The `pc` of an instruction that completes -/

theorem computeWith_ok_pc (f : Int → Int → Int) {i : Instr} {a b : Src} {d : Dst} {s : State} (h : Resolvable s i)
    (hs : i.sources = [a, b]) (hd : i.dest = some d) :
    ∃ t, computeWith Config.spec f a b d s = .ok t ∧ t.pc = s.pc + 4 :=
  ⟨_, computeWith_ok f (fun _ => resolvable_src h (by simp [hs])) (fun _ => resolvable_src h (by simp [hs]))
    (resolvable_dst h hd), rfl⟩

theorem jumpWith_ok_pc (taken : Int → Bool) {i : Instr} {a b : Src} {s : State} (h : Resolvable s i)
    (hs : i.sources = [a, b]) (hb : taken (value s a) = true → 0 ≤ value s b) :
    ∃ t, jumpWith Config.spec taken a b s = .ok t ∧
      t.pc = if taken (value s a) = true then (value s b).toNat else s.pc + 3 := by
  rw [jumpWith_ok taken (fun _ => resolvable_src h (by simp [hs])) (fun _ => resolvable_src h (by simp [hs]))]
  by_cases ht : taken (value s a) = true
  · have := hb ht
    exact ⟨_, by rw [if_pos ht, if_neg (by omega)], by rw [if_pos ht]; rfl⟩
  · exact ⟨_, by rw [if_neg ht], by rw [if_neg ht]; rfl⟩

theorem inWith_ok_pc {d : Dst} {s : State} (h : Resolvable s (.inp d)) (hp : s.src.pull ≠ none) :
    ∃ t, inWith Config.spec d s = .ok t ∧ t.pc = s.pc + 2 := by
  rw [inWith_ok (resolvable_dst h rfl)]
  cases hr : s.src.pull with
  | none => exact absurd hr hp
  | some r => exact ⟨_, rfl, rfl⟩

/-- R13: an instruction whose addresses exist, with its input if it is an IN and a target that exists if it jumps,
completes with the `pc` of the taken jump or the advance. -/
theorem effectWith_ok_pc {i : Instr} {s : State} (h : Resolvable s i)
    (hj : jumpTaken i s = true → 0 ≤ jumpTarget i s) (hp : ∀ d, i = .inp d → s.src.pull ≠ none) :
    ∃ t, effectWith Config.spec i s = .ok t ∧
      t.pc = if jumpTaken i s = true then (jumpTarget i s).toNat else s.pc + (1 + i.arity) := by
  cases i with
  | add a b d | mul a b d | lt a b d | eq a b d => exact computeWith_ok_pc _ h rfl rfl
  | jnz a b => exact jumpWith_ok_pc isNonZero h rfl hj
  | jz a b => exact jumpWith_ok_pc isZero h rfl hj
  | inp d => exact inWith_ok_pc h (hp d rfl)
  | out a => exact ⟨_, outWith_ok fun _ => resolvable_src h (List.mem_singleton_self a), rfl⟩
  | arb a => exact ⟨_, arbWith_ok fun _ => resolvable_src h (List.mem_singleton_self a), rfl⟩
  | hlt => exact ⟨_, haltWith_spec s, rfl⟩

/-- An IN that finds no input leaves `pc`, whether it waits, starves or has a negative address (R95). -/
theorem exec_inp_pc_of_pull_none {d : Dst} {s t : State} (hp : s.src.pull = none) (h : exec (.inp d) s = .next t) :
    t.pc = s.pc := by
  rcases settle_cases h with hok | ⟨f, -, rfl⟩
  · rw [inWith_ok_of_pull_none hp hok]
  · rfl

/-- Settles O20: what completes is read off the laws of the shared operations, what faults is a `raise`. -/
theorem pcOfEveryInstruction : Obligations.PcOfEveryInstruction := by
  refine ⟨fun i s h hj hp => ?_, fun d s t => exec_inp_pc_of_pull_none, fun s t hs h ht => ?_⟩
  · obtain ⟨t, ht, hpc⟩ := effectWith_ok_pc h hj hp
    exact ⟨t, by rw [exec_eq_settle, ht, settle], hpc⟩
  · obtain ⟨f, rfl⟩ := step_faulted_eq_raise hs h ht
    rfl

end Sys2Proof.Machine
end

section
/-!
PROOFS. The memory controller (spec 20_memory.md R32 to R36). Growth appends cells that hold 0, which is what a cell
that does not exist shows, so no growth can be seen; `get` and `set` are then a read and a one-cell update of what the
store shows.
-/
namespace Sys2Proof.Machine

namespace Store

/-! ## What growth keeps and creates -/

/-- An access to a cell that exists does not grow the store (R35). -/
theorem reach_of_lt_ext {st : Store} {a : Nat} (slack : Nat) (h : a < st.ext) : st.reach a slack = st :=
  if_neg (by omega)

theorem reach_of_ext_le {st : Store} {a : Nat} (slack : Nat) (h : st.ext ≤ a) :
    st.reach a slack = st.grow a slack :=
  if_pos h

theorem ext_grow {st : Store} {a : Nat} (slack : Nat) (h : st.ext ≤ a) : (st.grow a slack).ext = a + 1 + slack := by
  have hlen : (st.grow a slack).ext = st.ext + (a + 1 + slack - st.ext) := by simp [grow, ext]
  omega

/-- A cell that was there holds what it held (R36). -/
theorem cells_grow_of_lt {st : Store} {x : Nat} (a slack : Nat) (h : x < st.ext) :
    (st.grow a slack).cells[x]? = st.cells[x]? :=
  List.getElem?_append_left h

/-- A new cell holds 0 (R35). -/
theorem cells_grow_of_ge {st : Store} {a slack x : Nat} (hx : st.ext ≤ x) (h : x < (st.grow a slack).ext) :
    (st.grow a slack).cells[x]? = some 0 := by
  have hnew : x - st.ext < a + 1 + slack - st.ext := by
    simp only [grow, ext, List.length_append, List.length_replicate] at hx h ⊢
    omega
  rw [grow, List.getElem?_append_right hx]
  exact List.getElem?_replicate_of_lt hnew

/-- After an access its cell exists (R32, R33). -/
theorem lt_ext_reach (st : Store) (a slack : Nat) : a < (st.reach a slack).ext := by
  rcases Nat.lt_or_ge a st.ext with h | h
  · rwa [reach_of_lt_ext slack h]
  · rw [reach_of_ext_le slack h, ext_grow slack h]
    omega

/-! ## What the store shows -/

theorem show_of_ext_le {st : Store} {a : Nat} (h : st.ext ≤ a) : st.show a = 0 :=
  List.getD_eq_default _ _ h

/-- Growth is transparent (R36): old cells keep their values, and new cells hold the 0 they showed before. -/
@[simp] theorem show_grow (st : Store) (a slack b : Nat) : (st.grow a slack).show b = st.show b := by
  rcases Nat.lt_or_ge b st.ext with h | h
  · exact List.getD_append _ _ _ _ h
  · rw [show_of_ext_le h, Store.show, grow, List.getD_append_right _ _ _ _ h, List.getD_eq_getElem?_getD,
      List.getElem?_getD_replicate_default_eq]

@[simp] theorem show_reach (st : Store) (a slack b : Nat) : (st.reach a slack).show b = st.show b := by
  rcases Nat.lt_or_ge a st.ext with h | h
  · rw [reach_of_lt_ext slack h]
  · rw [reach_of_ext_le slack h, show_grow]

/-- Replacing a cell that exists changes what the store shows there and nowhere else. -/
theorem show_cells_set {st : Store} {a : Nat} (v : Int) (b : Nat) (h : a < st.ext) :
    Store.show ⟨st.cells.set a v⟩ b = if b = a then v else st.show b := by
  by_cases hb : b = a
  · subst hb
    rw [if_pos rfl]
    simp [Store.show, List.getElem?_set_self (show b < st.cells.length from h)]
  · rw [if_neg hb]
    simp [Store.show, List.getElem?_set_ne (Ne.symm hb)]

/-! ## The two accesses -/

/-- What `set` leaves for an address that exists: the store grown to the cell, with the value in it (R33). -/
def put (st : Store) (a : Nat) (v : Int) (slack : Nat) : Store :=
  ⟨(st.reach a slack).cells.set a v⟩

theorem get_of_neg (st : Store) {addr : Int} (slack : Nat) (h : addr < 0) :
    st.get addr slack = .error ⟨.addressError, addr⟩ := by
  rw [Store.get, check, if_pos h]
  rfl

theorem set_of_neg (st : Store) {addr : Int} (v : Int) (slack : Nat) (h : addr < 0) :
    st.set addr v slack = .error ⟨.addressError, addr⟩ := by
  rw [Store.set, check, if_pos h]
  rfl

theorem get_of_nonneg (st : Store) {addr : Int} (slack : Nat) (h : 0 ≤ addr) :
    st.get addr slack = .ok (st.show addr.toNat, st.reach addr.toNat slack) := by
  rw [Store.get, check, if_neg (by omega), ← st.show_reach addr.toNat slack addr.toNat]
  rfl

theorem set_of_nonneg (st : Store) {addr : Int} (v : Int) (slack : Nat) (h : 0 ≤ addr) :
    st.set addr v slack = .ok (st.put addr.toNat v slack) := by
  rw [Store.set, check, if_neg (by omega)]
  rfl

theorem show_put (st : Store) (a : Nat) (v : Int) (slack b : Nat) :
    (st.put a v slack).show b = if b = a then v else st.show b := by
  rw [put, show_cells_set v b (st.lt_ext_reach a slack), show_reach]

theorem lt_ext_put (st : Store) (a : Nat) (v : Int) (slack : Nat) : a < (st.put a v slack).ext := by
  have h := st.lt_ext_reach a slack
  simpa [put, ext] using h

/-! ## The store and the memory it shows -/

theorem Shows.reach {st : Store} {m : Mem} (h : st.Shows m) (a slack : Nat) : (st.reach a slack).Shows m :=
  fun b => (st.show_reach a slack b).trans (h b)

theorem Shows.put {st : Store} {m : Mem} (h : st.Shows m) (a : Nat) (v : Int) (slack : Nat) :
    (st.put a v slack).Shows (m.write a v) := by
  intro b
  rw [show_put, Mem.read_write, h b]

end Store

/-- Settles O52: growth does not show, so `get` and `set` are the memory's `read` and `write`. -/
theorem growingStoreShowsMemory : Obligations.GrowingStoreShowsMemory := by
  intro st m addr v slack h
  refine ⟨fun hneg => ⟨st.get_of_neg slack hneg, st.set_of_neg v slack hneg⟩, fun hpos => ⟨?_, ?_, ?_⟩⟩
  · exact ⟨_, by rw [st.get_of_nonneg slack hpos, h], h.reach _ slack, st.lt_ext_reach _ slack⟩
  · exact ⟨_, st.set_of_nonneg v slack hpos, h.put _ v slack, st.lt_ext_put _ v slack, st.show_put _ v slack⟩
  · intro hext
    rw [← h, Store.show_of_ext_le hext]

/-- Settles O53: an access to a cell that exists leaves the store as it is, any other appends zeros to it. -/
theorem growthKeepsCells : Obligations.GrowthKeepsCells := by
  intro st a slack x
  refine ⟨st.lt_ext_reach a slack, ?_⟩
  rcases Nat.lt_or_ge a st.ext with h | h
  · rw [Store.reach_of_lt_ext slack h]
    exact ⟨le_rfl, fun _ => rfl, fun hx hx' => absurd hx' (by omega), fun _ => rfl, fun h' => absurd h (by omega)⟩
  · rw [Store.reach_of_ext_le slack h]
    have hext := Store.ext_grow slack h
    exact ⟨by omega, Store.cells_grow_of_lt a slack, Store.cells_grow_of_ge, fun h' => absurd h (by omega),
      fun _ => hext⟩

end Sys2Proof.Machine
end

section
/-!
PROOFS. The decoder and the pseudocode of R63 (spec 30_encoding.md R57 to R63). Each format of the decoder is the loop
of R63 unrolled, so the decoder is the pseudocode; what the loop answers is then said once, by the digits it meets, and
the legal words, the three decode errors and the faults of a step are read off that.
-/
namespace Sys2Proof.Machine

open Sys2Proof.Safety

/-! ## One parameter is one round of the loop -/

theorem two_lt_of_no_mode {m : Nat} (h0 : m ≠ 0) (h1 : m ≠ 1) (h2 : m ≠ 2) : 2 < m := by
  omega

theorem readMode_map_digit (n i : Nat) :
    (readMode n i).map Mode.digit =
      if digit n (i + 1) > 2 then .error (.invalidMode n) else .ok (digit n (i + 1)) := by
  unfold readMode modeDigit
  split
  · next h => rw [h]; rfl
  · next h => rw [h]; rfl
  · next h => rw [h]; rfl
  · next h0 h1 h2 => rw [if_pos (two_lt_of_no_mode h0 h1 h2)]; rfl

theorem writeMode_map_digit (n i : Nat) :
    (writeMode n i).map WriteMode.digit =
      if digit n (i + 1) > 2 then .error (.invalidMode n)
      else if digit n (i + 1) = 1 then .error (.writeImmediate n) else .ok (digit n (i + 1)) := by
  unfold writeMode modeDigit
  split
  · next h => rw [h]; rfl
  · next h => rw [h]; rfl
  · next h => rw [h]; rfl
  · next h0 h1 h2 => rw [if_pos (two_lt_of_no_mode h0 h1 h2)]; rfl

/-- A round of the loop on a read parameter: no digit 1 is refused. -/
theorem specModes_read (n : Nat) {k wc left : Nat} (h : ¬(wc = 1 ∧ k - left = k)) :
    specModes n n k wc (left + 1) =
      (readMode n (k - left)).bind fun m => (specModes n n k wc left).map (m.digit :: ·) := by
  have hm := readMode_map_digit n (k - left)
  have hw : ¬(wc = 1 ∧ k - left = k ∧ digit n (k - left + 1) = 1) := fun ⟨hwc, hk, _⟩ => h ⟨hwc, hk⟩
  simp only [specModes, if_neg hw]
  split at hm <;> cases hr : readMode n (k - left) <;> simp_all [Except.map, Except.bind]

/-- The last round of the loop on a write parameter. -/
theorem specModes_write (n k : Nat) :
    specModes n n k 1 1 = (writeMode n k).map fun m => [m.digit] := by
  have hm := writeMode_map_digit n k
  simp only [specModes, Nat.sub_zero, true_and]
  split at hm
  · cases hr : writeMode n k <;> simp_all [Except.map]
  · split at hm <;> cases hr : writeMode n k <;> simp_all [Except.map]

/-! ## The decoder is the pseudocode -/

theorem specDecode_of_neg {w : Int} (h : w < 0) : specDecode w = .error (.invalidOpcode w) := if_pos h

theorem specDecode_of_lookup_none {w : Int} (h : arityTable.lookup (w % 100).toNat = none) :
    specDecode w = .error (.invalidOpcode w) := by
  simp only [specDecode, h, ite_self]

theorem specDecode_of_lookup {w : Int} {k wc : Nat} (hw : 0 ≤ w)
    (h : arityTable.lookup (w % 100).toNat = some (k, wc)) :
    specDecode w = (specModes w w.toNat k wc k).map fun ms => ((w % 100).toNat, k, wc, ms) := by
  simp only [specDecode, if_neg (show ¬ w < 0 by omega), h]

section Formats
variable {n op : Nat} (hop : n % 100 = op)
include hop

theorem specDecode_natCast {k wc : Nat} (hl : arityTable.lookup op = some (k, wc)) :
    specDecode n = (specModes n n k wc k).map fun ms => (op, k, wc, ms) := by
  have h : ((n : Int) % 100).toNat = op := by omega
  rw [specDecode_of_lookup (Int.natCast_nonneg n) (by rw [h, hl]), h, Int.toNat_natCast]

theorem decodeP3W_eq_specDecode (hl : arityTable.lookup op = some (3, 1)) {mk : Mode → Mode → WriteMode → Header}
    (hmk : ∀ m1 m2 m3, headerTuple (mk m1 m2 m3) = (op, 3, 1, [m1.digit, m2.digit, m3.digit])) :
    (decodeP3W n mk).map headerTuple = specDecode n := by
  rw [specDecode_natCast hop hl, specModes_read n (by decide), specModes_read n (by decide), specModes_write, decodeP3W]
  cases readMode n 1 with
  | error e => rfl
  | ok m1 =>
    cases readMode n 2 with
    | error e => rfl
    | ok m2 =>
      cases writeMode n 3 with
      | error e => rfl
      | ok m3 => exact congrArg Except.ok (hmk m1 m2 m3)

theorem decodeP1W_eq_specDecode (hl : arityTable.lookup op = some (1, 1)) {mk : WriteMode → Header}
    (hmk : ∀ m1, headerTuple (mk m1) = (op, 1, 1, [m1.digit])) :
    (decodeP1W n mk).map headerTuple = specDecode n := by
  rw [specDecode_natCast hop hl, specModes_write, decodeP1W]
  cases writeMode n 1 with
  | error e => rfl
  | ok m1 => exact congrArg Except.ok (hmk m1)

theorem decodeP1_eq_specDecode (hl : arityTable.lookup op = some (1, 0)) {mk : Mode → Header}
    (hmk : ∀ m1, headerTuple (mk m1) = (op, 1, 0, [m1.digit])) :
    (decodeP1 n mk).map headerTuple = specDecode n := by
  rw [specDecode_natCast hop hl, specModes_read n (by decide), decodeP1]
  cases readMode n 1 with
  | error e => rfl
  | ok m1 => exact congrArg Except.ok (hmk m1)

theorem decodeP2_eq_specDecode (hl : arityTable.lookup op = some (2, 0)) {mk : Mode → Mode → Header}
    (hmk : ∀ m1 m2, headerTuple (mk m1 m2) = (op, 2, 0, [m1.digit, m2.digit])) :
    (decodeP2 n mk).map headerTuple = specDecode n := by
  rw [specDecode_natCast hop hl, specModes_read n (by decide), specModes_read n (by decide), decodeP2]
  cases readMode n 1 with
  | error e => rfl
  | ok m1 =>
    cases readMode n 2 with
    | error e => rfl
    | ok m2 => exact congrArg Except.ok (hmk m1 m2)

end Formats

/-- The opcode table of the decoder is the table ARITY of R63, row by row. -/
theorem decodeTable_eq_specDecode (n : Nat) : (decodeTable n).map headerTuple = specDecode n := by
  unfold decodeTable
  split
  · next h => exact decodeP3W_eq_specDecode h rfl fun _ _ _ => rfl
  · next h => exact decodeP3W_eq_specDecode h rfl fun _ _ _ => rfl
  · next h => exact decodeP1W_eq_specDecode h rfl fun _ => rfl
  · next h => exact decodeP1_eq_specDecode h rfl fun _ => rfl
  · next h => exact decodeP2_eq_specDecode h rfl fun _ _ => rfl
  · next h => exact decodeP2_eq_specDecode h rfl fun _ _ => rfl
  · next h => exact decodeP3W_eq_specDecode h rfl fun _ _ _ => rfl
  · next h => exact decodeP3W_eq_specDecode h rfl fun _ _ _ => rfl
  · next h => exact decodeP1_eq_specDecode h rfl fun _ => rfl
  · next h => exact (specDecode_natCast h rfl).symm
  · next h1 h2 h3 h4 h5 h6 h7 h8 h9 h99 =>
    have hnone : arityTable.lookup ((n : Int) % 100).toNat = none := by
      rw [show ((n : Int) % 100).toNat = n % 100 by omega]
      simp only [List.lookup_eq_none_iff, arityTable, List.forall_mem_cons]
      simp_all
    exact (specDecode_of_lookup_none hnone).symm

/-- Settles O7: the sign first, then the table and the loop. -/
theorem decoderIsPseudocode : Obligations.DecoderIsPseudocode := by
  intro w
  rw [decodeWord_spec]
  split
  · next h => exact (specDecode_of_neg h).symm
  · next h =>
    obtain ⟨n, rfl⟩ := Int.eq_ofNat_of_zero_le (by omega : 0 ≤ w)
    exact decodeTable_eq_specDecode n

theorem decodeWord_eq_error {w : Int} {e : DecodeError} (h : specDecode w = .error e) :
    decodeWord Config.spec w = .error e := by
  have hd := decoderIsPseudocode w
  rw [h] at hd
  cases hw : decodeWord Config.spec w <;> simp_all [Except.map]

theorem exists_decodeWord_eq_ok {w : Int} {t : Nat × Nat × Nat × List Nat} (h : specDecode w = .ok t) :
    ∃ d, decodeWord Config.spec w = .ok d := by
  have hd := decoderIsPseudocode w
  rw [h] at hd
  cases hw : decodeWord Config.spec w <;> simp_all [Except.map]

/-! ## What the loop answers, by the digits it meets -/

section Loop
variable (w : Int) {n k wc : Nat}

/-- A round of the loop that finds nothing wrong with its digit. -/
theorem specModes_succ_of_good {left : Nat} (hd : digit n (k - left + 1) ≤ 2)
    (hw : ¬(wc = 1 ∧ k - left = k ∧ digit n (k - left + 1) = 1)) :
    specModes w n k wc (left + 1) = (specModes w n k wc left).map (digit n (k - left + 1) :: ·) := by
  simp only [specModes, if_neg hw, if_neg (show ¬ digit n (k - left + 1) > 2 by omega)]

/-- R59: a digit above 2 anywhere ahead of the loop. A digit 1 of the write parameter cannot come before it, because
that digit is the last. -/
theorem specModes_invalidMode {left i : Nat} (hi : k < i + left) (hik : i ≤ k) (hd : 2 < digit n (i + 1)) :
    specModes w n k wc left = .error (.invalidMode w) := by
  induction left with
  | zero => omega
  | succ left ih =>
    by_cases hbad : 2 < digit n (k - left + 1)
    · simp only [specModes, if_pos hbad]
    · have hne : i ≠ k - left := fun h => hbad (h ▸ hd)
      rw [specModes_succ_of_good w (by omega) (by omega), ih (by omega)]
      rfl

/-- R60: mode digit 1 of the write parameter, where no earlier digit is above 2. -/
theorem specModes_writeImmediate {left : Nat} (hl : left < k) (hpre : ∀ i, 1 ≤ i → i < k → digit n (i + 1) ≤ 2)
    (hd : digit n (k + 1) = 1) : specModes w n k 1 (left + 1) = .error (.writeImmediate w) := by
  induction left with
  | zero => simp [specModes, hd]
  | succ left ih =>
    rw [specModes_succ_of_good w (hpre _ (by omega) (by omega)) (by omega), ih (by omega)]
    rfl

/-- R62: the loop passes where every digit is at most 2 and that of a write parameter is not 1. -/
theorem specModes_ok {left : Nat} (hl : left ≤ k) (hd : ∀ i, 1 ≤ i → i ≤ k → digit n (i + 1) ≤ 2)
    (hw : wc = 1 → digit n (k + 1) ≠ 1) : ∃ ms, specModes w n k wc left = .ok ms := by
  induction left with
  | zero => exact ⟨[], rfl⟩
  | succ left ih =>
    obtain ⟨ms, hms⟩ := ih (by omega)
    have hgood : ¬(wc = 1 ∧ k - left = k ∧ digit n (k - left + 1) = 1) := fun ⟨hwc, hk, h1⟩ => hw hwc (hk ▸ h1)
    rw [specModes_succ_of_good w (hd _ (by omega) (by omega)) hgood, hms]
    exact ⟨_, rfl⟩

/-- The loop reads nothing of a word but its mode digits; the word itself stands only in its errors. -/
theorem specModes_eq_ok_of_digits_eq {w' : Int} {n' left : Nat} {ms : List Nat} (hl : left ≤ k)
    (hd : ∀ i, 1 ≤ i → i ≤ k → digit n (i + 1) = digit n' (i + 1)) (h : specModes w n k wc left = .ok ms) :
    specModes w' n' k wc left = .ok ms := by
  induction left generalizing ms with
  | zero => exact h
  | succ left ih =>
    simp only [specModes, hd (k - left) (by omega) (by omega)] at h ⊢
    split at h
    · cases h
    · next h2 =>
      split at h
      · cases h
      · next h1 =>
        rw [if_neg h2, if_neg h1]
        cases hr : specModes w n k wc left with
        | error e => rw [hr] at h; cases h
        | ok rest =>
          rw [hr] at h
          rwa [ih (by omega) hr]

end Loop

/-! ## The legal words and the three decode errors -/

/-- R62: the legal opcode words, as `Obligations.LegalOpcodeWords` writes them. -/
def LegalWord (w : Int) : Prop :=
  0 ≤ w ∧ ∃ k wc, arityTable.lookup (w % 100).toNat = some (k, wc) ∧
    (∀ i, 1 ≤ i → i ≤ k → digit w.toNat (i + 1) ≤ 2) ∧ (wc = 1 → digit w.toNat (k + 1) ≠ 1)

/-- An instruction with a write parameter has a parameter (R53). -/
theorem arity_pos_of_lookup {op k : Nat} (h : arityTable.lookup op = some (k, 1)) : 1 ≤ k := by
  obtain ⟨l₁, l₂, hl, -⟩ := List.lookup_eq_some_iff.1 h
  have hmem : (op, k, 1) ∈ arityTable := by simp [hl]
  have hrows : ∀ row ∈ arityTable, row.2.2 = 1 → 1 ≤ row.2.1 := by decide
  exact hrows _ hmem rfl

theorem decodeWord_invalidOpcode {w : Int} (h : w < 0 ∨ arityTable.lookup (w % 100).toNat = none) :
    decodeWord Config.spec w = .error (.invalidOpcode w) :=
  decodeWord_eq_error (h.elim specDecode_of_neg specDecode_of_lookup_none)

theorem decodeWord_invalidMode {w : Int} {k wc i : Nat} (hw : 0 ≤ w)
    (hl : arityTable.lookup (w % 100).toNat = some (k, wc)) (hi : 1 ≤ i) (hik : i ≤ k)
    (hd : 2 < digit w.toNat (i + 1)) : decodeWord Config.spec w = .error (.invalidMode w) := by
  refine decodeWord_eq_error ?_
  rw [specDecode_of_lookup hw hl, specModes_invalidMode w (by omega) hik hd]
  rfl

theorem decodeWord_writeImmediate {w : Int} {k : Nat} (hw : 0 ≤ w)
    (hl : arityTable.lookup (w % 100).toNat = some (k, 1))
    (hpre : ∀ i, 1 ≤ i → i < k → digit w.toNat (i + 1) ≤ 2) (hd : digit w.toNat (k + 1) = 1) :
    decodeWord Config.spec w = .error (.writeImmediate w) := by
  refine decodeWord_eq_error ?_
  obtain ⟨left, rfl⟩ : ∃ left, k = left + 1 := ⟨k - 1, by have := arity_pos_of_lookup hl; omega⟩
  rw [specDecode_of_lookup hw hl, specModes_writeImmediate w (by omega) hpre hd]
  rfl

theorem exists_decodeWord_eq_ok_of_legal {w : Int} (h : LegalWord w) : ∃ d, decodeWord Config.spec w = .ok d := by
  obtain ⟨hw, k, wc, hl, hd, hwc⟩ := h
  obtain ⟨ms, hms⟩ := specModes_ok w le_rfl hd hwc
  exact exists_decodeWord_eq_ok (by rw [specDecode_of_lookup hw hl, hms]; rfl)

/-- A word that is not legal is refused under one of the three names, and the error carries the word (R57 to R60). -/
theorem decodeWord_error_of_not_legal {w : Int} (h : ¬ LegalWord w) :
    ∃ e, decodeWord Config.spec w = .error e ∧
      (e = .invalidOpcode w ∧ (w < 0 ∨ arityTable.lookup (w % 100).toNat = none) ∨
        e = .invalidMode w ∨ e = .writeImmediate w) := by
  by_cases hw : w < 0
  · exact ⟨_, decodeWord_invalidOpcode (.inl hw), .inl ⟨rfl, .inl hw⟩⟩
  cases hl : arityTable.lookup (w % 100).toNat with
  | none => exact ⟨_, decodeWord_invalidOpcode (.inr hl), .inl ⟨rfl, .inr rfl⟩⟩
  | some row =>
    obtain ⟨k, wc⟩ := row
    by_cases hd : ∀ i, 1 ≤ i → i ≤ k → digit w.toNat (i + 1) ≤ 2
    · have hwc : wc = 1 ∧ digit w.toNat (k + 1) = 1 := by
        by_contra hne
        exact h ⟨by omega, k, wc, hl, hd, fun h1 h2 => hne ⟨h1, h2⟩⟩
      obtain ⟨rfl, hk⟩ := hwc
      exact ⟨_, decodeWord_writeImmediate (by omega) hl (fun i hi hik => hd i hi hik.le) hk, .inr (.inr rfl)⟩
    · push Not at hd
      obtain ⟨i, hi, hik, hbad⟩ := hd
      exact ⟨_, decodeWord_invalidMode (by omega) hl hi hik hbad, .inr (.inl rfl)⟩

/-- Everything the decoder can refuse (R57 to R60). -/
theorem decodeWord_error_cases {w : Int} {e : DecodeError} (h : decodeWord Config.spec w = .error e) :
    e = .invalidOpcode w ∧ (w < 0 ∨ arityTable.lookup (w % 100).toNat = none) ∨
      e = .invalidMode w ∨ e = .writeImmediate w := by
  by_cases hw : LegalWord w
  · obtain ⟨d, hd⟩ := exists_decodeWord_eq_ok_of_legal hw
    rw [hd] at h
    cases h
  · obtain ⟨e', he, hcases⟩ := decodeWord_error_of_not_legal hw
    rw [he] at h
    cases h
    exact hcases

/-- Settles O8: a legal word decodes, any other is refused. -/
theorem legalOpcodeWords : Obligations.LegalOpcodeWords := by
  refine fun w => ⟨⟨fun ⟨d, hd⟩ => ?_, exists_decodeWord_eq_ok_of_legal⟩,
    fun e he => (decodeWord_error_cases he).imp_left And.left⟩
  by_contra hw
  obtain ⟨e, he, -⟩ := decodeWord_error_of_not_legal hw
  rw [hd] at he
  cases he

/-! ## The decode faults of a step -/

/-- R72, R159: in a transaction, an opcode word that does not decode is raised with its cause, and nothing else is
done. -/
theorem step_of_decodeWord_error {s : State} {e : DecodeError} (hs : s.inTransaction = true)
    (h : decodeWord Config.spec (s.mem.read s.pc) = .error e) : step s = .next (s.raise (decodeFault e)) := by
  rw [step_of_inTransaction hs, cycle, fetchInstr_error h]

/-- Settles O9: the sign and the table come before the mode digits. -/
theorem unknownOpcodeFaults : Obligations.UnknownOpcodeFaults :=
  fun _ hs h => step_of_decodeWord_error hs (decodeWord_invalidOpcode h)

/-- Settles O10, by where the loop of R63 meets the digit. -/
theorem badModeDigitFaults : Obligations.BadModeDigitFaults :=
  fun _ _ _ _ hs hw hl hi hik hd => step_of_decodeWord_error hs (decodeWord_invalidMode hw hl hi hik hd)

/-- Settles O11: the write parameter's digit is the last the loop of R63 examines. -/
theorem immediateWriteFaults : Obligations.ImmediateWriteFaults :=
  fun _ _ hs hw hl hpre hd => step_of_decodeWord_error hs (decodeWord_writeImmediate hw hl hpre hd)

end Sys2Proof.Machine
end

section
/-!
PROOFS. The digits above the last mode digit (spec 30_encoding.md R61). The opcode and the belonging mode digits of a
word are those of its remainder modulo `10^(k+2)`, and the pseudocode reads nothing else of it.
-/
namespace Sys2Proof.Machine

open Sys2Proof.Safety

/-! ## A decoded header and its tuple -/

theorem headerTuple_arity (h : Header) : (headerTuple h).2.1 = h.arity := by
  cases h <;> rfl

@[simp] theorem Mode.digit_inj {a b : Mode} : a.digit = b.digit ↔ a = b := by
  cases a <;> cases b <;> decide

@[simp] theorem WriteMode.digit_inj {a b : WriteMode} : a.digit = b.digit ↔ a = b := by
  cases a <;> cases b <;> decide

/-- The tuple of R63 says all a header says: the opcode tells the ten forms apart, the digits the modes of one form. -/
theorem headerTuple_injective : Function.Injective headerTuple := by
  intro h h' heq
  cases h <;> cases h' <;> simp_all [headerTuple]

theorem decodeWord_eq_ok_iff (w : Int) (h : Header) :
    decodeWord Config.spec w = .ok h ↔ specDecode w = .ok (headerTuple h) := by
  rw [← decoderIsPseudocode w]
  cases decodeWord Config.spec w with
  | error e => simp [Except.map]
  | ok d => simp [Except.map, headerTuple_injective.eq_iff]

/-- The header of a word has the arity of its row in the table. -/
theorem arity_of_decodeWord {w : Int} {h : Header} {k wc : Nat} (hw : 0 ≤ w)
    (hl : arityTable.lookup (w % 100).toNat = some (k, wc)) (hd : decodeWord Config.spec w = .ok h) : h.arity = k := by
  have hs := (decodeWord_eq_ok_iff w h).1 hd
  rw [specDecode_of_lookup hw hl] at hs
  cases hm : specModes w w.toNat k wc k with
  | error e => rw [hm] at hs; cases hs
  | ok ms =>
    rw [hm] at hs
    rw [← headerTuple_arity, ← Except.ok.inj hs]

/-! ## The word without its surplus digits -/

theorem digit_mod (n : Nat) {i k : Nat} (h : i < k) : digit (n % 10 ^ k) i = digit n i := by
  obtain ⟨j, rfl⟩ : ∃ j, k = i + (j + 1) := ⟨k - i - 1, by omega⟩
  rw [digit, digit, pow_add, Nat.mod_mul_right_div_self, pow_succ', Nat.mod_mul_right_mod]

/-- The opcode is below the surplus digits. -/
theorem opcode_mod (w : Int) (k : Nat) : w % 10 ^ (k + 2) % 100 = w % 100 :=
  Int.emod_emod_of_dvd w ⟨10 ^ k, by ring⟩

theorem toNat_mod {w : Int} (hw : 0 ≤ w) (j : Nat) : (w % 10 ^ j).toNat = w.toNat % 10 ^ j := by
  obtain ⟨n, rfl⟩ := Int.eq_ofNat_of_zero_le hw
  exact_mod_cast Int.toNat_natCast (n % 10 ^ j)

/-- R61: two words with one opcode and the same belonging mode digits decode alike. -/
theorem decodeWord_ok_of_digits_eq {w w' : Int} {k wc : Nat} {h : Header} (hw : 0 ≤ w) (hw' : 0 ≤ w')
    (hl : arityTable.lookup (w % 100).toNat = some (k, wc)) (hop : w % 100 = w' % 100)
    (hd : ∀ i, 1 ≤ i → i ≤ k → digit w.toNat (i + 1) = digit w'.toNat (i + 1))
    (h₁ : decodeWord Config.spec w = .ok h) : decodeWord Config.spec w' = .ok h := by
  rw [decodeWord_eq_ok_iff, specDecode_of_lookup hw hl] at h₁
  rw [decodeWord_eq_ok_iff, specDecode_of_lookup hw' (hop ▸ hl), ← hop]
  cases hm : specModes w w.toNat k wc k with
  | error e => rw [hm] at h₁; cases h₁
  | ok ms => rwa [specModes_eq_ok_of_digits_eq w le_rfl hd hm, ← hm]

theorem decodeWord_mod_iff {w : Int} {k wc : Nat} (hw : 0 ≤ w)
    (hl : arityTable.lookup (w % 100).toNat = some (k, wc)) (h : Header) :
    decodeWord Config.spec w = .ok h ↔ decodeWord Config.spec (w % 10 ^ (k + 2)) = .ok h := by
  have hw' : 0 ≤ w % 10 ^ (k + 2) := Int.emod_nonneg w (by positivity)
  have hop := opcode_mod w k
  have hd : ∀ i, 1 ≤ i → i ≤ k → digit (w % 10 ^ (k + 2)).toNat (i + 1) = digit w.toNat (i + 1) :=
    fun i _ hik => by rw [toNat_mod hw, digit_mod _ (by omega)]
  exact ⟨decodeWord_ok_of_digits_eq hw hw' hl hop.symm fun i hi hik => (hd i hi hik).symm,
    decodeWord_ok_of_digits_eq hw' hw (hop ▸ hl) hop hd⟩

/-! ## STRICT_DIGITS -/

/-- A variant decodes as the spec's machine and then looks at the surplus digits. -/
theorem decodeWord_eq_bind (c : Variant) {w : Int} (hw : 0 ≤ w) :
    decodeWord c w = (decodeWord Config.spec w).bind (surplusCheck c w.toNat) := by
  rw [decodeWord_spec, decodeWord, if_neg (by omega), if_neg (by omega)]

/-- A word has no surplus digit exactly when it is its own remainder. -/
theorem div_eq_zero_iff_eq_mod {w : Int} (hw : 0 ≤ w) (j : Nat) : w.toNat / 10 ^ j = 0 ↔ w = w % 10 ^ j := by
  obtain ⟨n, rfl⟩ := Int.eq_ofNat_of_zero_le hw
  have hpos : 0 < 10 ^ j := by positivity
  rw [Int.toNat_natCast, Nat.div_eq_zero_iff_lt hpos, ← Nat.mod_eq_iff_lt hpos.ne', eq_comm]
  norm_cast

section Strict
variable {c : Variant} {w : Int} {k wc : Nat} (hw : 0 ≤ w)
  (hl : arityTable.lookup (w % 100).toNat = some (k, wc))
include hw hl

theorem decodeWord_strict_of_no_surplus (hs : w = w % 10 ^ (k + 2)) :
    decodeWord c w = decodeWord Config.spec w := by
  rw [decodeWord_eq_bind c hw]
  cases hd : decodeWord Config.spec w with
  | error e => rfl
  | ok h =>
    have hzero := (div_eq_zero_iff_eq_mod hw (k + 2)).2 hs
    simp [Except.bind, surplusCheck, arity_of_decodeWord hw hl hd, hzero]

theorem decodeWord_strict_of_surplus (hc : c.strictDigits = true) (hs : w ≠ w % 10 ^ (k + 2))
    (hne : decodeWord Config.spec w ≠ .error (.writeImmediate w)) :
    decodeWord c w = .error (.invalidMode w) := by
  rw [decodeWord_eq_bind c hw]
  cases hd : decodeWord Config.spec w with
  | error e =>
    rcases decodeWord_error_cases hd with ⟨-, hneg | hnone⟩ | rfl | rfl
    · omega
    · rw [hl] at hnone
      cases hnone
    · rfl
    · exact absurd hd hne
  | ok h =>
    have hpos := (div_eq_zero_iff_eq_mod hw (k + 2)).not.2 hs
    simp [Except.bind, surplusCheck, arity_of_decodeWord hw hl hd, hpos, hc, Int.toNat_of_nonneg hw]

end Strict

/-! ## The encoder -/

/-- The encoder emits no surplus digit (R50, R61). -/
theorem opcodeWord_lt (i : Instr) : opcodeWord i < 10 ^ (i.arity + 2) := by
  have hshape : Laws.Encoding.Statement i := by
    cases i with
    | add a b d => exact Laws.Encoding.add a b d
    | mul a b d => exact Laws.Encoding.mul a b d
    | inp d => exact Laws.Encoding.inp d
    | out a => exact Laws.Encoding.out a
    | jnz a b => exact Laws.Encoding.jnz a b
    | jz a b => exact Laws.Encoding.jz a b
    | lt a b d => exact Laws.Encoding.lt a b d
    | eq a b d => exact Laws.Encoding.eq a b d
    | arb a => exact Laws.Encoding.arb a
    | hlt => exact Laws.Encoding.hlt
  exact hshape.2.1

/-- Settles O12: the decoder by the digits it reads, the variant by its one further check, the encoder by its shape. -/
theorem surplusDigitsIgnored : Obligations.SurplusDigitsIgnored :=
  ⟨fun _ _ _ hw hl => ⟨decodeWord_mod_iff hw hl, fun _ hc =>
    ⟨decodeWord_strict_of_no_surplus hw hl, decodeWord_strict_of_surplus hw hl hc⟩⟩, opcodeWord_lt⟩

end Sys2Proof.Machine
end

section
/-!
PROOFS. The common idioms (spec 30_encoding.md R65): each is one instruction with an immediate parameter,
and is read off the law of the jumps or of the `P3W` instructions.
-/
namespace Sys2Proof.Machine

open Sys2Proof.Safety

/-- An immediate resolves to no address, so no address of it is negative (R55). -/
theorem srcAddr_immediate_nonneg (s : State) (p : Int) : ∀ x, srcAddr s (.immediate p) = some x → 0 ≤ x := by
  simp [srcAddr]

/-- A jump whose test holds of an immediate and whose target is an immediate address goes there, and only that. -/
theorem jumpWith_immediate {taken : Int → Bool} {p : Int} (hp : taken p = true) (s : State) (t : Nat) :
    jumpWith Config.spec taken (.immediate p) (.immediate t) s = .ok { s with pc := t } := by
  have htaken : taken (value s (.immediate p)) = true := hp
  have htarget : value s (.immediate t) = t := rfl
  rw [jumpWith_ok taken (srcAddr_immediate_nonneg s p) (srcAddr_immediate_nonneg s t), if_pos htaken, htarget,
    if_neg (by omega)]
  rfl

/-- A `P3W` instruction with an immediate second parameter stores its result and only advances. -/
theorem settle_computeWith_immediate (f : Int → Int → Int) {s : State} {a : Src} {d : Dst} (p : Int)
    (ha : ∀ x, srcAddr s a = some x → 0 ≤ x) (hd : 0 ≤ dstAddr s d) {v : Int} (hv : f (value s a) p = v) :
    ∃ t, settle s (computeWith Config.spec f a (.immediate p) d s) = .next t ∧
      Stored s t (dstAddr s d).toNat v 4 := by
  rw [computeWith_ok f ha (srcAddr_immediate_nonneg s p) hd, ← hv]
  exact ⟨_, rfl, stored_of_store s _ _ 4⟩

/-- Settles O36: two jumps with a constant test, and four results by arithmetic with a constant. -/
theorem pseudoInstructionIdioms : Obligations.PseudoInstructionIdioms := by
  refine ⟨fun s t => ?_, fun s t => ?_, fun s a d k h => ?_⟩
  · exact congrArg (settle s) (jumpWith_immediate (taken := isNonZero) (p := 1) rfl s t)
  · exact congrArg (settle s) (jumpWith_immediate (taken := isZero) (p := 0) rfl s t)
  · have ha : ∀ x, srcAddr s a = some x → 0 ≤ x := fun _ => resolvable_src h (by simp [Instr.sources])
    have hd : 0 ≤ dstAddr s d := resolvable_dst h rfl
    exact ⟨settle_computeWith_immediate _ 0 ha hd (Int.add_zero _),
      settle_computeWith_immediate _ 1 ha hd (Int.mul_one _),
      settle_computeWith_immediate _ (-k) ha hd Int.sub_eq_add_neg.symm,
      settle_computeWith_immediate _ (-1) ha hd (Int.mul_neg_one _)⟩

end Sys2Proof.Machine
end

section
/-!
PROOFS. The operand resolver (spec 40_execution_cycle.md R74 to R76). What a mode resolves to is read off the laws of
the two resolvers. An effect begins with its resolutions in the order of `addresses`, so each of them either takes its
address off that list or raises the first negative one.
-/
namespace Sys2Proof.Machine

open Sys2Proof.Safety

/-! ## One parameter, by its mode -/

/-- A read parameter whose address exists resolves to the cell there (R74). -/
theorem readOperand_of_nonneg {s : State} {a : Src} {x : Int} (ha : srcAddr s a = some x) (h : 0 ≤ x) :
    readOperand Config.spec s a = .ok (s.mem.read x.toNat) := by
  have hv : value s a = s.mem.read x.toNat := by rw [value, ha]
  rw [readOperand_ok (by simpa [ha] using h), hv]

/-- Settles O16: an immediate has no address, and of an address the sign decides. -/
theorem readOperandByMode : Obligations.ReadOperandByMode := fun s p =>
  ⟨readOperand_error rfl, readOperand_of_nonneg rfl, readOperand_ok (srcAddr_immediate_nonneg s p),
    readOperand_error rfl, readOperand_of_nonneg rfl⟩

/-- A write parameter with a negative address faults with that address (R75). -/
theorem writeAddr_of_neg {s : State} {d : Dst} (h : dstAddr s d < 0) :
    writeAddr Config.spec s d = .error ⟨.addressError, dstAddr s d⟩ := by
  rw [writeAddr_spec, if_pos h]

/-- A write parameter whose address exists resolves to it (R75). -/
theorem writeAddr_of_nonneg {s : State} {d : Dst} (h : 0 ≤ dstAddr s d) :
    writeAddr Config.spec s d = .ok (dstAddr s d).toNat := by
  rw [writeAddr_spec, if_neg (by omega)]

/-- Settles O17: the sign of the address decides. -/
theorem writeAddressByMode : Obligations.WriteAddressByMode := fun _ p =>
  ⟨writeAddr_of_neg (d := .position p), writeAddr_of_nonneg (d := .position p),
    writeAddr_of_neg (d := .relative p), writeAddr_of_nonneg (d := .relative p)⟩

/-! ## All parameters, in their order -/

/-- `x` is the first negative address of the list, as `Obligations.FirstNegativeAddressFaults` says it. -/
def FirstNegative (l : List Int) (x : Int) : Prop :=
  l.find? (fun y => decide (y < 0)) = some x

theorem not_firstNegative_nil (x : Int) : ¬ FirstNegative [] x := nofun

theorem FirstNegative.eq_of_neg {y x : Int} {l : List Int} (h : FirstNegative (y :: l) x) (hy : y < 0) : y = x := by
  simpa [FirstNegative, hy] using h

theorem FirstNegative.tail_of_nonneg {y x : Int} {l : List Int} (h : FirstNegative (y :: l) x) (hy : 0 ≤ y) :
    FirstNegative l x := by
  simpa [FirstNegative, show ¬ y < 0 by omega] using h

/-- An effect that first resolves a read parameter raises the first negative address, if what it goes on with raises
the first negative address of the rest (R76 (b)). -/
theorem readOperand_bind_of_firstNegative {β : Type} {s : State} {a : Src} {as : List Src} {rest : List Int} {x : Int}
    {k : Int → Except FaultRecord β} (h : FirstNegative ((a :: as).filterMap (srcAddr s) ++ rest) x)
    (hk : FirstNegative (as.filterMap (srcAddr s) ++ rest) x → k (value s a) = .error ⟨.addressError, x⟩) :
    (readOperand Config.spec s a >>= k) = .error ⟨.addressError, x⟩ := by
  rcases readOperand_cases s a with ⟨hok, hpos⟩ | ⟨y, hy, hneg, hf⟩
  · rw [bind_ok hok]
    refine hk ?_
    cases hy : srcAddr s a with
    | none => rwa [List.filterMap_cons_none hy] at h
    | some y =>
      rw [List.filterMap_cons_some hy] at h
      exact h.tail_of_nonneg (hpos y hy)
  · rw [List.filterMap_cons_some hy] at h
    rw [bind_error hf, h.eq_of_neg hneg]

/-- The write parameter is resolved last, so its address is the only one left (R76 (c)). -/
theorem writeAddr_bind_of_firstNegative {β : Type} {s : State} {d : Dst} {x : Int} {k : Nat → Except FaultRecord β}
    (h : FirstNegative [dstAddr s d] x) : (writeAddr Config.spec s d >>= k) = .error ⟨.addressError, x⟩ := by
  rcases Int.lt_or_le (dstAddr s d) 0 with hneg | hpos
  · rw [bind_error (writeAddr_of_neg hneg), h.eq_of_neg hneg]
  · exact absurd (h.tail_of_nonneg hpos) (not_firstNegative_nil x)

theorem computeWith_of_firstNegative (f : Int → Int → Int) {a b : Src} {d : Dst} {s : State} {x : Int}
    (h : FirstNegative ([a, b].filterMap (srcAddr s) ++ [dstAddr s d]) x) :
    computeWith Config.spec f a b d s = .error ⟨.addressError, x⟩ :=
  readOperand_bind_of_firstNegative h fun h =>
    readOperand_bind_of_firstNegative h writeAddr_bind_of_firstNegative

/-- Both operands of a jump are resolved before its test, so an untaken jump faults too (R76 (a)). -/
theorem jumpWith_of_firstNegative (taken : Int → Bool) {a b : Src} {s : State} {x : Int}
    (h : FirstNegative ([a, b].filterMap (srcAddr s) ++ []) x) :
    jumpWith Config.spec taken a b s = .error ⟨.addressError, x⟩ :=
  readOperand_bind_of_firstNegative h fun h =>
    readOperand_bind_of_firstNegative h fun h => absurd h (not_firstNegative_nil x)

/-- R76: the effect of an instruction with a negative address is the fault of the first one. -/
theorem effectWith_of_firstNegative {i : Instr} {s : State} {x : Int} (h : FirstNegative (addresses s i) x) :
    effectWith Config.spec i s = .error ⟨.addressError, x⟩ := by
  cases i with
  | add a b d | mul a b d | lt a b d | eq a b d => exact computeWith_of_firstNegative _ h
  | jnz a b | jz a b => exact jumpWith_of_firstNegative _ h
  | inp d => exact writeAddr_bind_of_firstNegative h
  | out a | arb a => exact readOperand_bind_of_firstNegative h fun h => absurd h (not_firstNegative_nil x)
  | hlt => exact absurd h (not_firstNegative_nil x)

/-- Settles O18: every effect resolves its parameters first, and settling its fault raises it. -/
theorem firstNegativeAddressFaults : Obligations.FirstNegativeAddressFaults := fun i s x h => by
  rw [exec_eq_settle, effectWith_of_firstNegative h, settle]

end Sys2Proof.Machine
end

section
/-!
PROOFS. Resume of a terminal instance (spec 50_suspend_resume.md R128, R129): the transaction only reports, and the
report of a terminal state is its halt or its recorded fault.
-/
namespace Sys2Proof.Machine

theorem State.report_of_halted {s : State} (h : s.runState = .halted) : s.report = some .halted := by
  simp only [State.report, h]

theorem State.report_of_faulted {s : State} {f : FaultRecord} (h : s.runState = .faulted) (hf : s.fault = some f) :
    s.report = some (.fault f) := by
  simp only [State.report, h, hf, Option.map_some]

/-- Settles O43: `Resume` of a terminal instance is its report, and leaves the state it found. -/
theorem terminalResumeIsNoOp : Obligations.TerminalResumeIsNoOp := by
  refine fun fuel src b s => ⟨fun h => ?_, fun f h hf => ?_⟩
  · rw [resume_of_terminal fuel src b (.inl h), State.report_of_halted h, Option.map_some]
  · rw [resume_of_terminal fuel src b (.inr h), State.report_of_faulted h hf, Option.map_some]

end Sys2Proof.Machine
end

section
/-!
PROOFS. The faults of a step (spec 60_exceptions.md R157 to R159). The decoder comes first, and it is the pseudocode of
R63; then the effect of the instruction, which faults exactly where the list of R158 names a fault, and with that fault.
-/
namespace Sys2Proof.Machine

open Sys2Proof.Safety

/-! ## Taking a fault -/

theorem sameHost_raise (f : FaultRecord) (s : State) : SameHost s (s.raise f) :=
  ⟨s.raise_starveFault f, s.raise_started f, s.raise_moves f⟩

/-- Settles O15: `raise` writes the run state and the record; the report and the end of the transaction follow. -/
theorem faultEntryIsPrecise : Obligations.FaultEntryIsPrecise := fun f s =>
  ⟨s.raise_fault f, s.raise_runState f, State.report_of_faulted (s.raise_runState f) (s.raise_fault f), rfl,
    s.raise_mem f, s.raise_pc f, s.raise_rb f, s.raise_out f, s.raise_src f, sameHost_raise f s⟩

/-! ## The faults of an instruction whose addresses exist -/

theorem resolvable_iff_find?_eq_none {s : State} {i : Instr} :
    Resolvable s i ↔ (addresses s i).find? (fun x => decide (x < 0)) = none := by
  simp [Resolvable]

/-- A taken jump to a negative target faults with the target (R100, R101, D9). -/
theorem jumpWith_of_negative_target (taken : Int → Bool) {i : Instr} {a b : Src} {s : State} (h : Resolvable s i)
    (hs : i.sources = [a, b]) (ht : taken (value s a) = true) (hb : value s b < 0) :
    jumpWith Config.spec taken a b s = .error ⟨.addressError, value s b⟩ := by
  rw [jumpWith_ok taken (fun _ => resolvable_src h (by simp [hs])) (fun _ => resolvable_src h (by simp [hs])),
    if_pos ht, if_pos hb]

/-- R158 (5): of the instructions only the two jumps are taken. -/
theorem effectWith_of_negative_target {i : Instr} {s : State} (h : Resolvable s i) (ht : jumpTaken i s = true)
    (hneg : jumpTarget i s < 0) : effectWith Config.spec i s = .error ⟨.addressError, jumpTarget i s⟩ := by
  cases i with
  | jnz a b => exact jumpWith_of_negative_target isNonZero h rfl ht hneg
  | jz a b => exact jumpWith_of_negative_target isZero h rfl ht hneg
  | add | mul | inp | out | lt | eq | arb | hlt => cases ht

/-- An instruction that starves is an IN without input under the drain policy (R95). -/
theorem starves_iff {i : Instr} {s : State} :
    starves i s = true ↔ (∃ d, i = .inp d) ∧ s.src.pull = none ∧ s.starveFault = true := by
  cases i <;> simp [starves]

/-- R158 (6): starvation is the last fault, met when the address of the IN exists. -/
theorem effectWith_of_starves {i : Instr} {s : State} (h : Resolvable s i) (hs : starves i s = true) :
    effectWith Config.spec i s = .error ⟨.inputStarvation, s.pc⟩ := by
  obtain ⟨⟨d, rfl⟩, hp, hd⟩ := starves_iff.1 hs
  rw [effectWith, inWith_ok (resolvable_dst h rfl), hp]
  exact if_pos hd

/-- An instruction with none of the faults of R158 completes, or it is an IN that waits for input. -/
theorem effectWith_ok_of_no_fault {i : Instr} {s : State} (h : Resolvable s i)
    (hj : jumpTaken i s = true → 0 ≤ jumpTarget i s) (hs : ¬ starves i s = true) :
    ∃ t, effectWith Config.spec i s = .ok t := by
  by_cases hw : (∃ d, i = .inp d) ∧ s.src.pull = none
  · obtain ⟨⟨d, rfl⟩, hp⟩ := hw
    have hpolicy : ¬ s.starveFault = true := fun hd => hs (starves_iff.2 ⟨⟨d, rfl⟩, hp, hd⟩)
    rw [effectWith, inWith_ok (resolvable_dst h rfl), hp]
    exact ⟨_, if_neg hpolicy⟩
  · obtain ⟨t, ht, -⟩ := effectWith_ok_pc h hj fun d hd hp => hw ⟨⟨d, hd⟩, hp⟩
    exact ⟨t, ht⟩

/-! ## The first fault is the one taken -/

/-- R158 (4) to (6): the effect of an instruction is the first fault of the list, or it passes. -/
theorem effectWith_firstInstrFault_cases (i : Instr) (s : State) :
    (∃ f, firstInstrFault s i = some f ∧ effectWith Config.spec i s = .error f) ∨
    (firstInstrFault s i = none ∧ ∃ t, effectWith Config.spec i s = .ok t) := by
  unfold firstInstrFault
  split
  next x hx => exact .inl ⟨_, rfl, effectWith_of_firstNegative hx⟩
  next hx =>
    have hres := resolvable_iff_find?_eq_none.2 hx
    split
    next hj => exact .inl ⟨_, rfl, effectWith_of_negative_target hres hj.1 hj.2⟩
    next hj =>
      split
      next hs => exact .inl ⟨_, rfl, effectWith_of_starves hres hs⟩
      next hs =>
        have htarget : jumpTaken i s = true → 0 ≤ jumpTarget i s := fun ht => by
          by_contra hneg
          exact hj ⟨ht, by omega⟩
        exact .inr ⟨rfl, effectWith_ok_of_no_fault hres htarget hs⟩

/-- R158 (1) to (3): a word that does not decode is the first fault, whatever follows it. -/
theorem firstFault_of_decodeWord_error {s : State} {e : DecodeError}
    (h : decodeWord Config.spec (s.mem.read s.pc) = .error e) : firstFault s = some (decodeFault e) := by
  have hspec : specDecode (s.mem.read s.pc) = .error e := by rw [← decoderIsPseudocode, h]; rfl
  simp only [firstFault, hspec]

/-- Where the word decodes, the first fault is the decoded instruction's. -/
theorem firstFault_of_decodeWord_ok {s : State} {h : Header} {i : Instr}
    (hd : decodeWord Config.spec (s.mem.read s.pc) = .ok h) (hi : fetchInstr s = .ok i) :
    firstFault s = firstInstrFault s i := by
  simp only [firstFault, (decodeWord_eq_ok_iff _ h).1 hd, hi]

/-- R157, R158: a step takes the first fault of the list, or it has the effect of the instruction it fetched. -/
theorem step_firstFault_cases {s : State} (hs : s.inTransaction = true) :
    (∃ f, firstFault s = some f ∧ step s = .next (s.raise f)) ∨
    (firstFault s = none ∧ ∃ i t, effectWith Config.spec i s = .ok t ∧ step s = .next t) := by
  cases hd : decodeWord Config.spec (s.mem.read s.pc) with
  | error e => exact .inl ⟨_, firstFault_of_decodeWord_error hd, step_of_decodeWord_error hs hd⟩
  | ok h =>
    have hi := fetchInstr_ok hd
    rw [firstFault_of_decodeWord_ok hd hi, step_of_inTransaction hs, cycle, hi]
    dsimp only
    rw [exec_eq_settle]
    rcases effectWith_firstInstrFault_cases (h.instr _ _ _) s with ⟨f, hf, he⟩ | ⟨hf, t, he⟩
    · exact .inl ⟨f, hf, by rw [he, settle]⟩
    · exact .inr ⟨hf, _, t, he, by rw [he, settle]⟩

/-- Settles O19: the first fault of the list is raised in the state the step began in; an effect that passes does not
make a running state FAULTED. -/
theorem faultsOfAStep : Obligations.FaultsOfAStep := by
  intro s t hs hstep
  rcases step_firstFault_cases hs with ⟨f, hf, hr⟩ | ⟨hf, i, u, hu, hr⟩
  · obtain rfl : s.raise f = t := by simpa [hr] using hstep
    exact ⟨fun g hg => by rw [Option.some.inj (hf.symm.trans hg)], fun hn => by simp [hf] at hn⟩
  · obtain rfl : u = t := by simpa [hr] using hstep
    have hrun : s.runState ≠ .faulted := by simp [((State.inTransaction_iff s).1 hs).1]
    exact ⟨fun g hg => by simp [hf] at hg, fun _ => effectWith_ok_not_faulted hrun hu⟩

end Sys2Proof.Machine
end

section
/-!
PROOFS. Construction and the first transaction (spec 70_reset_and_hazards.md R181 to R183). Construction leaves the
image followed by zeros, and an instance the host has not started, on which a step is the host's next move; the first
`Resume` opens a transaction at address 0.
-/
namespace Sys2Proof.Machine

/-! ## Memory after construction -/

/-- R181: the image, and 0 from its end on. -/
theorem read_construct (img : Image) (s : State) (i : Nat) : (s.construct img).mem.read i = img.getD i 0 := by
  rw [State.construct_mem, Mem.read_load]
  split
  next => simp
  next h => rw [List.getD_eq_default _ _ (by omega)]; rfl

/-! ## The first moves after construction -/

theorem hostTurn_of_moves_nil {s : State} (h : s.moves = []) : hostTurn s = s := by
  simp only [hostTurn, h]

theorem hostTurn_of_moves_cons {s : State} {m : HostMove} {ms : List HostMove} (h : s.moves = m :: ms) :
    hostTurn s = m.apply { s with moves := ms } := by
  simp only [hostTurn, h]

/-- R181: nothing runs by itself. -/
theorem construct_not_inTransaction (img : Image) (s : State) : (s.construct img).inTransaction = false := rfl

/-- Construction from another state with the host's moves to come is construction with those moves. -/
theorem construct_with_moves (img : Image) (s : State) (ms : List HostMove) :
    { s.construct img with moves := ms } = State.construct img { s with moves := ms } := rfl

/-- R122, R181: a constructed instance is live, so the first `Resume` opens a transaction. -/
theorem begin_construct_inTransaction (img : Image) (s : State) (b : Bool) :
    ((s.construct img).begin b).inTransaction = true := by
  rw [State.begin_of_live b _ (by simp) (by simp), State.inTransaction_iff]
  exact ⟨rfl, rfl⟩

/-- R181: the step after construction is the host's `Resume`, where that is the host's next move. -/
theorem step_construct_of_resume (img : Image) {s : State} {b : Bool} {ms : List HostMove}
    (h : s.moves = .resume b :: ms) :
    step (s.construct img) = .next ((State.construct img { s with moves := ms }).begin b) := by
  rw [step_of_not_inTransaction (construct_not_inTransaction img s),
    hostTurn_of_moves_cons ((s.construct_moves img).trans h), construct_with_moves, HostMove.apply]

/-- Settles O1: the memory is read off image load; without a move the host's turn changes nothing, and a `Resume`
begins in the constructed memory. -/
theorem constructionLoadsImage : Obligations.ConstructionLoadsImage := by
  intro img s
  refine ⟨fun i v hv => ?_, fun i hi => ?_, s.construct_pc img, s.construct_rb img, s.construct_runState img,
    s.construct_out img, s.construct_fault img, fun hm => ?_, fun b ms hm => ?_⟩
  · rw [read_construct, List.getD_eq_getElem?_getD, hv, Option.getD_some]
  · rw [read_construct, List.getD_eq_default _ _ hi]
  · rw [step_of_not_inTransaction (construct_not_inTransaction img s),
      hostTurn_of_moves_nil ((s.construct_moves img).trans hm)]
  · exact ⟨_, step_construct_of_resume img hm, begin_construct_inTransaction img _ b, by simp, by simp⟩

/-! ## The empty image -/

/-- R183: 0 is no opcode, so the first step of a transaction on the empty image faults at address 0. -/
theorem step_begin_construct_nil (s : State) (b : Bool) :
    step ((s.construct []).begin b) = .next (((s.construct []).begin b).raise ⟨.invalidOpcode, 0⟩) := by
  have hword : decodeWord Config.spec (((s.construct []).begin b).mem.read ((s.construct []).begin b).pc) =
      .error (.invalidOpcode 0) := by
    rw [State.begin_mem, read_construct, List.getD_nil]
    exact decodeWord_invalidOpcode (.inr (by decide))
  exact step_of_decodeWord_error (begin_construct_inTransaction [] s b) hword

/-- Settles O2: the fault record is the one just raised, and `raise` keeps `pc`. -/
theorem emptyImageFaultsAtZero : Obligations.EmptyImageFaultsAtZero :=
  ⟨fun s a => read_construct [] s a,
    fun s b => ⟨_, step_begin_construct_nil s b, State.raise_runState _ _, State.raise_fault _ _, by simp⟩, rfl⟩

end Sys2Proof.Machine
end

section
/-!
PROOFS. The encoder against the decoder (spec 30_encoding.md sections 1, 3 and 4). The pseudocode of R63 answers of a
word its opcode, the row of the table and the belonging digits, and the canonical word has the opcode and the mode
digits of its instruction in those places; both directions of the round trip compare the two.
-/
namespace Sys2Proof.Machine

open Sys2Proof.Safety

/-- Settles O4: each word has the opcode and the digits that its row says. -/
theorem specWordsDecode : Obligations.SpecWordsDecode :=
  ⟨rfl, rfl, rfl, rfl, rfl, rfl, rfl, rfl, rfl, rfl, rfl, rfl, rfl⟩

/-! ## What the pseudocode answers of a word -/

/-- The `left` mode digits of a word that the loop of R63 has still to examine, of `k`. -/
def lastDigits (n k left : Nat) : List Nat :=
  (List.range' (k - left + 1) left).map fun i => digit n (i + 1)

theorem lastDigits_succ {n k left : Nat} (h : left < k) :
    lastDigits n k (left + 1) = digit n (k - left + 1) :: lastDigits n k left := by
  have hstart : k - (left + 1) + 1 = k - left := by omega
  rw [lastDigits, lastDigits, hstart, List.range'_succ, List.map_cons]

/-- What the loop of R63 answers, where it answers, are the digits it examined. -/
theorem specModes_eq_lastDigits {w : Int} {n k wc left : Nat} {ms : List Nat} (hl : left ≤ k)
    (h : specModes w n k wc left = .ok ms) : ms = lastDigits n k left := by
  induction left generalizing ms with
  | zero => exact (Except.ok.inj h).symm
  | succ left ih =>
    simp only [specModes] at h
    split at h
    · cases h
    split at h
    · cases h
    cases hr : specModes w n k wc left with
    | error e => rw [hr] at h; cases h
    | ok rest =>
      rw [hr] at h
      rw [← Except.ok.inj h, lastDigits_succ (by omega), ih (by omega) hr]

/-- What the pseudocode answers of a word: its low two digits, their row in the table, and the belonging digits. -/
theorem specDecode_ok {w : Int} {op k wc : Nat} {ms : List Nat} (h : specDecode w = .ok (op, k, wc, ms)) :
    0 ≤ w ∧ op = (w % 100).toNat ∧ arityTable.lookup op = some (k, wc) ∧ ms = lastDigits w.toNat k k := by
  by_cases hw : w < 0
  · rw [specDecode_of_neg hw] at h
    cases h
  cases hl : arityTable.lookup (w % 100).toNat with
  | none =>
    rw [specDecode_of_lookup_none hl] at h
    cases h
  | some row =>
    rw [specDecode_of_lookup (by omega) hl] at h
    cases hm : specModes w w.toNat row.1 row.2 row.1 with
    | error e => rw [hm] at h; cases h
    | ok ds =>
      rw [hm] at h
      cases h
      exact ⟨by omega, rfl, hl, specModes_eq_lastDigits le_rfl hm⟩

/-! ## The instruction of a header, the header of an instruction -/

@[simp] theorem Mode.src_word (m : Mode) (p : Int) : (m.src p).word = p := by
  cases m <;> rfl

@[simp] theorem Mode.src_mode (m : Mode) (p : Int) : (m.src p).mode = m := by
  cases m <;> rfl

@[simp] theorem WriteMode.dst_word (m : WriteMode) (p : Int) : (m.dst p).word = p := by
  cases m <;> rfl

@[simp] theorem WriteMode.dst_mode (m : WriteMode) (p : Int) : (m.dst p).mode = m := by
  cases m <;> rfl

@[simp] theorem Src.mode_src_word (a : Src) : a.mode.src a.word = a := by
  cases a <;> rfl

@[simp] theorem Dst.mode_dst_word (d : Dst) : d.mode.dst d.word = d := by
  cases d <;> rfl

@[simp] theorem header_instr_arity (h : Header) (p1 p2 p3 : Int) : (h.instr p1 p2 p3).arity = h.arity := by
  cases h <;> rfl

/-- What a header says, in the form of R63, read off an instruction that has it. -/
theorem headerTuple_eq (h : Header) (p1 p2 p3 : Int) :
    headerTuple h = ((h.instr p1 p2 p3).opcode, h.arity, (h.instr p1 p2 p3).writes, (h.instr p1 p2 p3).modeDigits) := by
  cases h <;> simp [headerTuple, Header.instr, Instr.opcode, Header.arity, Instr.writes, Instr.modeDigits]

theorem header_instr_params (h : Header) (p1 p2 p3 : Int) :
    (h.instr p1 p2 p3).params = [p1, p2, p3].take h.arity := by
  cases h <;> simp [Header.instr, Instr.params, Header.arity]

/-- The words beyond the arity are not part of the instruction. -/
theorem header_instr_congr (h : Header) {p q : Nat → Int} (hpq : ∀ j, 1 ≤ j → j ≤ h.arity → p j = q j) :
    h.instr (p 1) (p 2) (p 3) = h.instr (q 1) (q 2) (q 3) := by
  cases h <;> simp_all [Header.instr, Header.arity]

/-- The header of an instruction: its operation and its modes. -/
def headerOf : Instr → Header
  | .add a b d => .add a.mode b.mode d.mode
  | .mul a b d => .mul a.mode b.mode d.mode
  | .inp d => .inp d.mode
  | .out a => .out a.mode
  | .jnz a b => .jnz a.mode b.mode
  | .jz a b => .jz a.mode b.mode
  | .lt a b d => .lt a.mode b.mode d.mode
  | .eq a b d => .eq a.mode b.mode d.mode
  | .arb a => .arb a.mode
  | .hlt => .hlt

@[simp] theorem headerOf_arity (i : Instr) : (headerOf i).arity = i.arity := by
  cases i <;> rfl

/-- An instruction is that of its header and its parameter words, whatever cells follow. -/
theorem headerOf_instr_params (i : Instr) (rest : List Int) :
    (headerOf i).instr ((i.params ++ rest).getD 0 0) ((i.params ++ rest).getD 1 0) ((i.params ++ rest).getD 2 0) =
      i := by
  cases i <;> simp [headerOf, Header.instr, Instr.params]

theorem headerTuple_headerOf (i : Instr) : headerTuple (headerOf i) = (i.opcode, i.arity, i.writes, i.modeDigits) := by
  cases i <;> rfl

theorem params_length (i : Instr) : i.params.length = i.arity := by
  cases i <;> rfl

/-! ## The canonical opcode word -/

theorem opcode_lt (i : Instr) : i.opcode < 100 := by
  cases i <;> simp [Instr.opcode]

theorem arity_le (i : Instr) : i.arity ≤ 3 := by
  cases i <;> simp [Instr.arity]

theorem lookup_opcode (i : Instr) : arityTable.lookup i.opcode = some (i.arity, i.writes) := by
  cases i <;> rfl

theorem modeDigits_length (i : Instr) : i.modeDigits.length = i.arity := by
  cases i <;> rfl

theorem modeDigits_getD_le (i : Instr) (j : Nat) : i.modeDigits.getD j 0 ≤ 2 := by
  have hall : ∀ m ∈ i.modeDigits, m ≤ 2 := by
    cases i <;> simp [Instr.modeDigits, Laws.Encoding.modeDigit_le, Laws.Encoding.writeModeDigit_le]
  rw [List.getD_eq_getElem?_getD]
  cases hj : i.modeDigits[j]? with
  | none => exact Nat.zero_le 2
  | some m => exact hall m (List.mem_of_getElem? hj)

/-- There is no write mode of digit 1 (R60). -/
theorem writeModeDigit_ne_one (m : WriteMode) : m.digit ≠ 1 := by
  cases m <;> decide

/-- The digit of a write parameter is the last one (R53). -/
theorem last_modeDigit_ne_one {i : Instr} (h : i.writes = 1) : i.modeDigits.getD (i.arity - 1) 0 ≠ 1 := by
  cases i <;> simp_all [Instr.writes, Instr.modeDigits, Instr.arity, writeModeDigit_ne_one]

theorem opcodeWord_mod (i : Instr) : opcodeWord i % 100 = i.opcode := by
  have := opcode_lt i
  unfold opcodeWord
  omega

/-- The mode digits stand above the opcode, in parameter order (R51). -/
theorem digit_opcodeWord (i : Instr) {j : Nat} (hj : j < 3) : digit (opcodeWord i) (j + 2) = i.modeDigits.getD j 0 := by
  have hop := opcode_lt i
  have h0 := modeDigits_getD_le i 0
  have h1 := modeDigits_getD_le i 1
  have h2 := modeDigits_getD_le i 2
  unfold digit opcodeWord
  interval_cases j <;> omega

theorem lastDigits_opcodeWord (i : Instr) : lastDigits (opcodeWord i) i.arity i.arity = i.modeDigits := by
  have hk := arity_le i
  refine List.ext_getElem (by simp [lastDigits, modeDigits_length]) fun j hj hj' => ?_
  have hj3 : j < 3 := by rw [modeDigits_length] at hj'; omega
  have hpos : 1 + j + 1 = j + 2 := by omega
  simp [lastDigits, hpos, digit_opcodeWord i hj3, List.getElem?_eq_getElem hj']

theorem opcodeWord_legal (i : Instr) : LegalWord (opcodeWord i) := by
  have hop : ((opcodeWord i : Int) % 100).toNat = i.opcode := by rw [← opcodeWord_mod]; omega
  have hk := arity_le i
  refine ⟨by omega, i.arity, i.writes, by rw [hop, lookup_opcode], fun j hj hjk => ?_, fun hw => ?_⟩
  · obtain ⟨m, rfl⟩ : ∃ m, j = m + 1 := ⟨j - 1, by omega⟩
    rw [Int.toNat_natCast, digit_opcodeWord i (by omega)]
    exact modeDigits_getD_le i m
  · have hpos := arity_pos_of_lookup (hw ▸ lookup_opcode i)
    have hlast : i.arity + 1 = i.arity - 1 + 2 := by omega
    rw [Int.toNat_natCast, hlast, digit_opcodeWord i (by omega)]
    exact last_modeDigit_ne_one hw

/-- The canonical opcode word decodes to the header of its instruction. -/
theorem decodeWord_opcodeWord (i : Instr) : decodeWord Config.spec (opcodeWord i) = .ok (headerOf i) := by
  obtain ⟨h, hd⟩ := exists_decodeWord_eq_ok_of_legal (opcodeWord_legal i)
  have hs := (decodeWord_eq_ok_iff _ h).1 hd
  rcases ht : headerTuple h with ⟨op, k, wc, ms⟩
  rw [ht] at hs
  obtain ⟨-, hop, hl, rfl⟩ := specDecode_ok hs
  have hopi : op = i.opcode := by rw [← opcodeWord_mod]; omega
  obtain ⟨rfl, rfl⟩ : k = i.arity ∧ wc = i.writes := by simpa [hopi, lookup_opcode, eq_comm] using hl
  rw [hd, headerTuple_injective (ht.trans ?_)]
  rw [headerTuple_headerOf, hopi, Int.toNat_natCast, lastDigits_opcodeWord]

/-! ## The round trip -/

/-- Settles O5: the canonical word decodes to the header, and the words after it are the parameter words. -/
theorem encodedInstructionDecodes : Obligations.EncodedInstructionDecodes := by
  intro i rest
  have hlen : (encode i).length = 1 + i.arity := by rw [encode, List.length_cons, params_length, Nat.add_comm]
  have hdrop : (encode i ++ rest).drop (1 + i.arity) = rest := List.drop_left' hlen
  have hword : (encode i ++ rest).getD 0 0 = opcodeWord i := rfl
  simp only [decode, hword, decodeWord_opcodeWord, headerOf_arity, hdrop]
  exact congrArg (fun j => Except.ok (j, rest)) (headerOf_instr_params i rest)

/-- A word without its surplus digits is its opcode and its belonging digits, each at its weight (R51). -/
theorem mod_eq_lastDigits (n : Nat) {k : Nat} (hk : k ≤ 3) :
    n % 100 + 100 * (lastDigits n k k).getD 0 0 + 1000 * (lastDigits n k k).getD 1 0 +
      10000 * (lastDigits n k k).getD 2 0 = n % 10 ^ (k + 2) := by
  interval_cases k <;> simp [lastDigits, List.range', digit] <;> omega

/-- Settles O6: the pseudocode answers the opcode and the digits of the word, which the instruction has. -/
theorem decodedWordIsCanonical : Obligations.DecodedWordIsCanonical := by
  intro w h p1 p2 p3 hd
  refine ⟨?_, header_instr_arity h p1 p2 p3, header_instr_params h p1 p2 p3⟩
  have hs := (decodeWord_eq_ok_iff w h).1 hd
  rw [headerTuple_eq h p1 p2 p3] at hs
  obtain ⟨hw, hop, -, hms⟩ := specDecode_ok hs
  obtain ⟨n, rfl⟩ := Int.eq_ofNat_of_zero_le hw
  have hmod := mod_eq_lastDigits n (header_instr_arity h p1 p2 p3 ▸ arity_le (h.instr p1 p2 p3))
  rw [Int.toNat_natCast] at hms
  have hopn : (h.instr p1 p2 p3).opcode = n % 100 := by omega
  rw [opcodeWord, hms, hopn, hmod]
  norm_cast

/-! ## Well-formed instructions -/

/-- A legal width has at least 64 bits, so it holds every number below 2^63 (R83). -/
theorem fits_of_lt {c : Variant} (hc : c.Legal) {n : Nat} (h : n < 2 ^ 63) : c.fits n = true := by
  unfold Variant.fits
  split
  next => rfl
  next W hW =>
    have h64 := hc W hW
    have hpow : (2 : Int) ^ 63 ≤ 2 ^ (W - 1) := pow_le_pow_right₀ (by norm_num) (by omega)
    have hn : (n : Int) < 2 ^ 63 := by exact_mod_cast h
    exact decide_eq_true ⟨by omega, by omega⟩

/-- Settles O57: the opcode word has at most five digits, and the other cells are the parameter words. -/
theorem wellFormedCellsFit : Obligations.WellFormedCellsFit := by
  intro c i hc hwf
  have hlt : opcodeWord i < 10 ^ 5 :=
    (opcodeWord_lt i).trans_le (Nat.pow_le_pow_right (by norm_num) (by have := arity_le i; omega))
  rw [encode, List.all_cons, fits_of_lt hc (hlt.trans (by norm_num)), Bool.true_and]
  exact hwf

end Sys2Proof.Machine
end

section
/-!
PROOFS. What a step leaves and what it changes (spec 40_execution_cycle.md R77 to R79, 10_state.md section 10). The ways
an effect can pass are said once, in any variant; that a step answers, is all or nothing, and leaves the rest of the
state as it was is read off them.
-/
namespace Sys2Proof.Machine

open Sys2Proof.Safety

/-! ## The checks of a variant, inverted -/

theorem checkRange_eq_ok_iff {c : Variant} {s : State} {v x : Int} :
    checkRange c s v = .ok x ↔ c.fits v = true ∧ x = v := by
  unfold checkRange
  split
  next h => simp [h, eq_comm]
  next h => simp [h]

theorem pcPlus_eq_ok_iff {c : Variant} {s : State} {n a : Nat} :
    pcPlus c s n = .ok a ↔ c.fits ((s.pc + n : Nat) : Int) = true ∧ a = s.pc + n := by
  constructor
  · intro h
    obtain ⟨_, hr, h⟩ := ok_of_bind_ok h
    cases h
    exact ⟨(checkRange_eq_ok_iff.1 hr).1, rfl⟩
  · rintro ⟨h, rfl⟩
    exact bind_ok (checkRange_eq_ok_iff.2 ⟨h, rfl⟩) _

theorem checkTarget_eq_ok_iff {y : Int} {n : Nat} : checkTarget y = .ok n ↔ y = n := by
  unfold checkTarget
  split
  next h => simp only [reduceCtorEq, false_iff]; omega
  next h => simp only [Except.ok.injEq]; omega

/-- A write parameter that resolves has an address that exists (R75). -/
theorem writeAddr_eq_ok_iff {s : State} {d : Dst} {n : Nat} :
    writeAddr Config.spec s d = .ok n ↔ dstAddr s d = n := by
  rw [writeAddr_spec]
  split
  next h => simp only [reduceCtorEq, false_iff]; omega
  next h => simp only [Except.ok.injEq]; omega

/-! ## The ways an effect passes -/

/-- What the effect of an instruction can do in a variant where it takes no fault: one store and an advance, the same
with an input taken, the wait of an IN, an output, a new base, a jump taken or not, or the halt. -/
inductive Completes (c : Variant) (s : State) : Instr → State → Prop
  | store {i : Instr} {d : Dst} {n : Nat} {v : Int} (hi : i.dest = some d) (hd : writeAddr c s d = .ok n)
      (hv : c.fits v = true) (hpc : c.fits ((s.pc + 4 : Nat) : Int) = true) :
      Completes c s i ((s.store n v).setPc (s.pc + 4))
  | input {d : Dst} {n : Nat} {v : Int} {rest : Source} (hd : writeAddr c s d = .ok n) (hv : c.fits v = true)
      (hpc : c.fits ((s.pc + 2 : Nat) : Int) = true) :
      Completes c s (.inp d) { (s.store n v).setPc (s.pc + 2) with src := rest }
  | wait {d : Dst} (hp : s.src.pull = none) (hs : s.starveFault = false) :
      Completes c s (.inp d) { s with runState := .awaitingInput }
  | output {a : Src} {x : Int} (ha : readOperand c s a = .ok x) (hpc : c.fits ((s.pc + 2 : Nat) : Int) = true) :
      Completes c s (.out a) { s.setPc (s.pc + 2) with out := some x, runState := .producedOutput }
  | base {a : Src} {v : Int} (hv : c.fits v = true) (hpc : c.fits ((s.pc + 2 : Nat) : Int) = true) :
      Completes c s (.arb a) { s.setPc (s.pc + 2) with rb := v }
  | jump {i : Instr} {a b : Src} {n : Nat} (hi : i = .jnz a b ∨ i = .jz a b)
      (hn : readOperand c s b = .ok (n : Int) ∨ c.fits (n : Int) = true) : Completes c s i (s.setPc n)
  | halt (hpc : c.fits ((s.pc + 1 : Nat) : Int) = true) : Completes c s .hlt (s.halt (s.pc + 1))

theorem computeWith_completes {c : Variant} {f : Int → Int → Int} {i : Instr} {a b : Src} {d : Dst} {s t : State}
    (hi : i.dest = some d) (h : computeWith c f a b d s = .ok t) : Completes c s i t := by
  obtain ⟨x, -, h⟩ := ok_of_bind_ok h
  obtain ⟨y, -, h⟩ := ok_of_bind_ok h
  obtain ⟨n, hd, h⟩ := ok_of_bind_ok h
  obtain ⟨v, hv, h⟩ := ok_of_bind_ok h
  obtain ⟨next, hn, h⟩ := ok_of_bind_ok h
  obtain ⟨hfits, rfl⟩ := checkRange_eq_ok_iff.1 hv
  obtain ⟨hpc, rfl⟩ := pcPlus_eq_ok_iff.1 hn
  cases h
  exact .store hi hd hfits hpc

theorem inWith_completes {c : Variant} {d : Dst} {s t : State} (h : inWith c d s = .ok t) :
    Completes c s (.inp d) t := by
  obtain ⟨n, hd, h⟩ := ok_of_bind_ok h
  cases hp : s.src.pull with
  | some r =>
    rw [hp] at h
    obtain ⟨v, hv, h⟩ := ok_of_bind_ok h
    obtain ⟨next, hn, h⟩ := ok_of_bind_ok h
    obtain ⟨hfits, rfl⟩ := checkRange_eq_ok_iff.1 hv
    obtain ⟨hpc, rfl⟩ := pcPlus_eq_ok_iff.1 hn
    cases h
    exact .input hd hfits hpc
  | none =>
    rw [hp] at h
    dsimp only at h
    split at h
    next => cases h
    next hs =>
      cases h
      exact .wait hp (eq_false_of_ne_true hs)

theorem jumpWith_completes {c : Variant} {taken : Int → Bool} {i : Instr} {a b : Src} {s t : State}
    (hi : i = .jnz a b ∨ i = .jz a b) (h : jumpWith c taken a b s = .ok t) : Completes c s i t := by
  obtain ⟨x, -, h⟩ := ok_of_bind_ok h
  obtain ⟨y, hy, h⟩ := ok_of_bind_ok h
  split at h
  · obtain ⟨n, hn, h⟩ := ok_of_bind_ok h
    cases h
    exact .jump hi (.inl (checkTarget_eq_ok_iff.1 hn ▸ hy))
  · obtain ⟨n, hn, h⟩ := ok_of_bind_ok h
    obtain ⟨hpc, rfl⟩ := pcPlus_eq_ok_iff.1 hn
    cases h
    exact .jump hi (.inr hpc)

theorem outWith_completes {c : Variant} {a : Src} {s t : State} (h : outWith c a s = .ok t) :
    Completes c s (.out a) t := by
  obtain ⟨x, hx, h⟩ := ok_of_bind_ok h
  obtain ⟨next, hn, h⟩ := ok_of_bind_ok h
  obtain ⟨hpc, rfl⟩ := pcPlus_eq_ok_iff.1 hn
  cases h
  exact .output hx hpc

theorem arbWith_completes {c : Variant} {a : Src} {s t : State} (h : arbWith c a s = .ok t) :
    Completes c s (.arb a) t := by
  obtain ⟨x, -, h⟩ := ok_of_bind_ok h
  obtain ⟨v, hv, h⟩ := ok_of_bind_ok h
  obtain ⟨next, hn, h⟩ := ok_of_bind_ok h
  obtain ⟨hfits, rfl⟩ := checkRange_eq_ok_iff.1 hv
  obtain ⟨hpc, rfl⟩ := pcPlus_eq_ok_iff.1 hn
  cases h
  exact .base hfits hpc

theorem haltWith_completes {c : Variant} {s t : State} (h : haltWith c s = .ok t) : Completes c s .hlt t := by
  obtain ⟨next, hn, h⟩ := ok_of_bind_ok h
  obtain ⟨hpc, rfl⟩ := pcPlus_eq_ok_iff.1 hn
  cases h
  exact .halt hpc

theorem effectWith_completes {c : Variant} {i : Instr} {s t : State} (h : effectWith c i s = .ok t) :
    Completes c s i t := by
  cases i with
  | add a b d | mul a b d | lt a b d | eq a b d => exact computeWith_completes rfl h
  | inp d => exact inWith_completes h
  | out a => exact outWith_completes h
  | jnz a b => exact jumpWith_completes (.inl rfl) h
  | jz a b => exact jumpWith_completes (.inr rfl) h
  | arb a => exact arbWith_completes h
  | hlt => exact haltWith_completes h

/-- A meaning raises a fault or completes (R79). -/
theorem exec_cases {i : Instr} {s t : State} (h : exec i s = .next t) :
    (∃ f, t = s.raise f) ∨ Completes Config.spec s i t := by
  rw [exec_eq_settle] at h
  rcases settle_cases h with hok | ⟨f, -, rfl⟩
  · exact .inr (effectWith_completes hok)
  · exact .inl ⟨f, rfl⟩

/-- A cycle of a variant raises a fault, or the instruction it fetched completes (R70, R79). -/
theorem cycleWith_cases {c : Variant} {s t : State} (h : cycleWith c s = .next t) :
    (∃ f, t = s.raise f) ∨ ∃ i, fetchWith c s = .ok i ∧ Completes c s i t := by
  rcases settle_cases h with hok | ⟨f, -, rfl⟩
  · obtain ⟨i, hi, h⟩ := ok_of_bind_ok hok
    exact .inr ⟨i, hi, effectWith_completes h⟩
  · exact .inl ⟨f, rfl⟩

theorem cycle_eq_cycleWith (s : State) : cycle s = cycleWith Config.spec s := cycle_eq_settle s

theorem cycle_cases {s t : State} (h : cycle s = .next t) :
    (∃ f, t = s.raise f) ∨ ∃ i, fetchInstr s = .ok i ∧ Completes Config.spec s i t :=
  cycleWith_cases ((cycle_eq_cycleWith s).symm.trans h)

/-! ## What completing leaves unchanged -/

section Frame
variable {c : Variant} {i : Instr} {s t : State}

theorem Completes.sameHost (h : Completes c s i t) : SameHost s t := by
  cases h <;> exact ⟨rfl, rfl, rfl⟩

theorem Completes.fault (h : Completes c s i t) : t.fault = s.fault := by
  cases h <;> rfl

theorem Completes.rb (h : Completes c s i t) (hi : ∀ a, i ≠ .arb a) : t.rb = s.rb := by
  cases h with
  | base => exact absurd rfl (hi _)
  | store | input | wait | output | jump | halt => rfl

theorem Completes.out (h : Completes c s i t) (hi : ∀ a, i ≠ .out a) : t.out = s.out := by
  cases h with
  | output => exact absurd rfl (hi _)
  | store | input | wait | base | jump | halt => rfl

theorem Completes.src (h : Completes c s i t) (hi : ∀ d, i ≠ .inp d) : t.src = s.src := by
  cases h with
  | input => exact absurd rfl (hi _)
  | store | wait | output | base | jump | halt => rfl

theorem Completes.runState (h : Completes c s i t) (hin : ∀ d, i ≠ .inp d) (hout : ∀ a, i ≠ .out a)
    (hhlt : i ≠ .hlt) : t.runState = s.runState := by
  cases h with
  | wait => exact absurd rfl (hin _)
  | output => exact absurd rfl (hout _)
  | halt => exact absurd rfl hhlt
  | store | input | base | jump => rfl

/-- Memory is left as it was, or it is written once, in the cell the write parameter addresses (R40). -/
theorem Completes.mem (h : Completes c s i t) :
    t.mem = s.mem ∨ ∃ d n v, i.dest = some d ∧ writeAddr c s d = .ok n ∧ t.mem = s.mem.write n v := by
  cases h with
  | store hi hd => exact .inr ⟨_, _, _, hi, hd, rfl⟩
  | input hd => exact .inr ⟨_, _, _, rfl, hd, rfl⟩
  | wait | output | base | jump | halt => exact .inl rfl

end Frame

/-- A cell that differs after an instruction is the one its write parameter addresses. -/
theorem dstAddr_eq_of_changed {i : Instr} {s t : State} {b : Nat} (h : exec i s = .next t)
    (hb : t.mem.read b ≠ s.mem.read b) : ∃ d, i.dest = some d ∧ dstAddr s d = b := by
  rcases exec_cases h with ⟨f, rfl⟩ | hc
  · exact absurd rfl hb
  rcases hc.mem with hm | ⟨d, n, v, hi, hd, hm⟩
  · exact absurd (by rw [hm]) hb
  · rw [hm, Mem.read_write] at hb
    have hbn : b = n := by
      by_contra hne
      exact hb (if_neg hne)
    exact ⟨d, hi, hbn ▸ writeAddr_eq_ok_iff.1 hd⟩

/-- Settles O22: a fault is a `raise`, and what completes keeps the fields it does not name. -/
theorem instructionFrame : Obligations.InstructionFrame := by
  refine fun i s t h => ⟨fun b hb => ?_, ?_⟩
  · by_contra hne
    obtain ⟨d, hi, hd⟩ := dstAddr_eq_of_changed h hne
    exact hb d hi hd
  · rcases exec_cases h with ⟨f, rfl⟩ | hc
    · exact ⟨fun _ => rfl, fun _ => rfl, fun _ => rfl, fun _ _ _ => .inr ⟨f, rfl⟩, fun _ => ⟨f, rfl⟩,
        sameHost_raise f s⟩
    · exact ⟨hc.rb, hc.out, hc.src, fun hin hout hhlt => .inl (hc.runState hin hout hhlt),
        fun hne => absurd hc.fault hne, hc.sameHost⟩

theorem cellsRead_length (s : State) (i : Instr) :
    (cellsRead s i).length = i.length + (i.sources.filterMap (srcAddr s)).length := by
  simp [cellsRead]

theorem arity_add_sources_length_le (i : Instr) : i.arity + i.sources.length ≤ 5 := by
  cases i <;> simp [Instr.arity, Instr.sources]

/-- Settles O23: an instruction has at most four words and two read parameters, and one write parameter. -/
theorem accessCounts : Obligations.AccessCounts := by
  intro i s
  have hsrc := List.length_filterMap_le (srcAddr s) i.sources
  have hle := arity_add_sources_length_le i
  rw [cellsRead_length, Instr.length]
  refine ⟨by omega, by omega, fun t b b' h hb hb' => ?_⟩
  obtain ⟨d, hi, hd⟩ := dstAddr_eq_of_changed h hb
  obtain ⟨d', hi', hd'⟩ := dstAddr_eq_of_changed h hb'
  obtain rfl : d = d' := Option.some.inj (hi.symm.trans hi')
  exact_mod_cast hd.symm.trans hd'

/-! ## The step -/

theorem exists_cycle_eq_next (s : State) : ∃ t, cycle s = .next t :=
  ⟨_, (cycle_eq_settle s).trans (settle_next s _)⟩

/-- Settles O14: a cycle settles, and the host's turn answers. -/
theorem stepAlwaysAnswers : Obligations.StepAlwaysAnswers := by
  intro s
  cases h : s.inTransaction with
  | true => exact step_of_inTransaction h ▸ exists_cycle_eq_next s
  | false => exact ⟨_, step_of_not_inTransaction h⟩

/-- Settles O13: the fetch answers the decoded instruction, and a cycle runs it. -/
theorem stepRunsDecodedInstruction : Obligations.StepRunsDecodedInstruction := by
  intro s h hs hd
  rw [step_of_inTransaction hs, cycle, fetchInstr_ok hd]

/-- Where no fault of R158 is due, the addresses and the target of a taken jump exist. -/
theorem resolvable_of_firstInstrFault_eq_none {i : Instr} {s : State} (h : firstInstrFault s i = none) :
    Resolvable s i ∧ (jumpTaken i s = true → 0 ≤ jumpTarget i s) := by
  unfold firstInstrFault at h
  split at h
  next => cases h
  next hx =>
    split at h
    next => cases h
    next hj => exact ⟨resolvable_iff_find?_eq_none.2 hx, fun ht => not_lt.1 fun hneg => hj ⟨ht, hneg⟩⟩

/-- Settles O21: the first fault of R158 is raised; where there is none, the instruction is an IN that waits or it
completes. -/
theorem stepIsAllOrNothing : Obligations.StepIsAllOrNothing := by
  intro i s
  rw [exec_eq_settle]
  rcases effectWith_firstInstrFault_cases i s with ⟨f, -, he⟩ | ⟨hf, t, he⟩
  · exact .inl ⟨f, by rw [he, settle]⟩
  · rw [he]
    by_cases hw : ∃ d, i = .inp d ∧ s.src.pull = none
    · obtain ⟨d, rfl, hp⟩ := hw
      exact .inr (.inl ⟨d, rfl, hp, by rw [inWith_ok_of_pull_none hp he, settle]⟩)
    · obtain ⟨hres, hj⟩ := resolvable_of_firstInstrFault_eq_none hf
      obtain ⟨u, hu, hpc⟩ := effectWith_ok_pc hres hj fun d hd hp => hw ⟨d, hd, hp⟩
      obtain rfl : t = u := Except.ok.inj (he.symm.trans hu)
      exact .inr (.inr ⟨hres, t, rfl, (effectWith_completes he).fault, hpc⟩)

end Sys2Proof.Machine
end

section
/-!
PROOFS. The invariant of a reachable state and the changes of the run state (spec 10_state.md sections 6 and 9,
50_suspend_resume.md section 1). Inside a transaction both follow from the ways an instruction completes, between
transactions from the host's moves, one by one.
-/
namespace Sys2Proof.Machine

open Sys2Proof.Safety

/-! ## The invariant -/

/-- Settles O3: at reset nothing is listed, no output is latched and no fault recorded. -/
theorem resetMeetsInvariant : Obligations.ResetMeetsInvariant where
  mem := Mem.wf_reset
  fault := by simp [State.reset]
  out := by simp [State.reset]
  fresh _ := ⟨rfl, rfl⟩

section Cycle
variable {c : Variant} {i : Instr} {s t : State}

theorem Completes.not_faulted (h : Completes c s i t) (hs : s.runState = .running) : t.runState ≠ .faulted := by
  cases h <;> simp [hs]

/-- Of what completes in a running state only an OUT leaves PRODUCED_OUTPUT, and it has latched its value (R96). -/
theorem Completes.out_of_producedOutput (h : Completes c s i t) (hs : s.runState = .running)
    (ht : t.runState = .producedOutput) : t.out ≠ none := by
  cases h with
  | output => simp
  | store | input | wait | base | jump | halt => simp [hs] at ht

theorem Completes.mem_wf (h : Completes c s i t) (hs : s.mem.wf = true) : t.mem.wf = true := by
  rcases h.mem with hm | ⟨d, n, v, -, -, hm⟩
  · rwa [hm]
  · exact hm ▸ Mem.wf_write n v hs

theorem inv_of_completes (hinv : Inv s) (hs : s.inTransaction = true) (h : Completes c s i t) : Inv t := by
  obtain ⟨hrun, hstarted⟩ := (State.inTransaction_iff s).1 hs
  have hnofault : s.fault = none := by simpa [hrun] using hinv.fault
  exact {
    mem := h.mem_wf hinv.mem
    fault := by simp [h.not_faulted hrun, h.fault, hnofault]
    out := h.out_of_producedOutput hrun
    fresh := by simp [h.sameHost.started, hstarted] }

theorem inv_raise (hinv : Inv s) (hs : s.inTransaction = true) (f : FaultRecord) : Inv (s.raise f) where
  mem := hinv.mem
  fault := by simp
  out := by simp
  fresh := by simp [((State.inTransaction_iff s).1 hs).2]

end Cycle

theorem inv_construct (image : Image) (s : State) : Inv (s.construct image) where
  mem := Mem.wf_load 0 image Mem.wf_reset
  fault := by simp
  out := by simp
  fresh _ := ⟨rfl, rfl⟩

/-- A Resume of a terminal state changes nothing, and of a live one records no fault (R122). -/
theorem inv_begin (b : Bool) {s : State} (hinv : Inv s) : Inv (s.begin b) := by
  by_cases h : s.runState = .halted ∨ s.runState = .faulted
  · rwa [State.begin_of_terminal b s h]
  · obtain ⟨hh, hf⟩ := not_or.1 h
    have hnofault : s.fault = none := by simpa [hf] using hinv.fault
    rw [State.begin_of_live b s hh hf]
    exact { mem := hinv.mem, fault := by simp [hnofault], out := by simp, fresh := by simp }

theorem inv_with_moves {s : State} (hinv : Inv s) (ms : List HostMove) : Inv { s with moves := ms } :=
  { hinv with }

theorem inv_apply {s : State} (hinv : Inv s) (m : HostMove) : Inv (m.apply s) := by
  cases m with
  | construct image => exact inv_construct image s
  | install src => exact { hinv with }
  | resume b => exact inv_begin b hinv

theorem inv_hostTurn {s : State} (hinv : Inv s) : Inv (hostTurn s) := by
  cases hm : s.moves with
  | nil => rwa [hostTurn_of_moves_nil hm]
  | cons m ms =>
    rw [hostTurn_of_moves_cons hm]
    exact inv_apply (inv_with_moves hinv ms) m

/-- Settles O39: a fault, what completes and each host move keep the invariant. -/
theorem stepKeepsInvariant : Obligations.StepKeepsInvariant := by
  intro s t hinv h
  cases hs : s.inTransaction with
  | true =>
    rcases cycle_cases (step_of_inTransaction hs ▸ h) with ⟨f, rfl⟩ | ⟨i, -, hc⟩
    · exact inv_raise hinv hs f
    · exact inv_of_completes hinv hs hc
  | false =>
    obtain rfl : hostTurn s = t := by simpa [step_of_not_inTransaction hs] using h
    exact inv_hostTurn hinv

/-! ## The run state -/

/-- Of what completes, an OUT, a HLT and an IN that waits change the run state, and nothing else does (R121). -/
theorem Completes.runState_cases {c : Variant} {i : Instr} {s t : State} (h : Completes c s i t)
    (hne : t.runState ≠ s.runState) :
    (∃ a, i = .out a ∧ t.runState = .producedOutput) ∨
    (i = .hlt ∧ t.runState = .halted) ∨
    (∃ d, i = .inp d ∧ s.src.pull = none ∧ s.starveFault = false ∧ t = { s with runState := .awaitingInput }) := by
  cases h with
  | output => exact .inl ⟨_, rfl, rfl⟩
  | halt => exact .inr (.inl ⟨rfl, rfl⟩)
  | wait hp hs => exact .inr (.inr ⟨_, rfl, hp, hs, rfl⟩)
  | store | input | base | jump => exact absurd rfl hne

/-- A Resume changes the run state of a suspended instance only, and to RUNNING (R121, R122). -/
theorem begin_runState_cases {b : Bool} {s : State} (hne : (s.begin b).runState ≠ s.runState) :
    (s.begin b).runState = .running ∧ (s.runState = .awaitingInput ∨ s.runState = .producedOutput) := by
  unfold State.begin at hne ⊢
  cases hr : s.runState <;> simp_all

/-- Of the host's moves a construction and a Resume change the run state (R121). -/
theorem hostTurn_runState_cases {s : State} (hne : (hostTurn s).runState ≠ s.runState) :
    (hostTurn s).runState = .running ∧
      ((∃ img ms, s.moves = .construct img :: ms) ∨
       (∃ b ms, s.moves = .resume b :: ms ∧ (s.runState = .awaitingInput ∨ s.runState = .producedOutput))) := by
  cases hm : s.moves with
  | nil => exact absurd (by rw [hostTurn_of_moves_nil hm]) hne
  | cons m ms =>
    rw [hostTurn_of_moves_cons hm] at hne ⊢
    cases m with
    | construct img => exact ⟨rfl, .inl ⟨img, ms, rfl⟩⟩
    | install src => exact absurd rfl hne
    | resume b =>
      obtain ⟨hr, hs⟩ := begin_runState_cases hne
      exact ⟨hr, .inr ⟨b, ms, rfl, hs⟩⟩

/-- Settles O40: a fault or one of the three instructions inside a transaction, one of two moves between them. -/
theorem runStateChangesOnlyByListedEvents : Obligations.RunStateChangesOnlyByListedEvents := by
  intro s t h hne
  cases hs : s.inTransaction with
  | true =>
    refine .inl ⟨rfl, ?_⟩
    rcases cycle_cases (step_of_inTransaction hs ▸ h) with hf | ⟨i, hi, hc⟩
    · exact .inl hf
    · rw [hi]
      rcases hc.runState_cases hne with ⟨a, rfl, ht⟩ | ⟨rfl, ht⟩ | ⟨d, rfl, hd⟩
      · exact .inr (.inl ⟨a, rfl, ht⟩)
      · exact .inr (.inr (.inl ⟨rfl, ht⟩))
      · exact .inr (.inr (.inr ⟨d, rfl, hd⟩))
  | false =>
    obtain rfl : hostTurn s = t := by simpa [step_of_not_inTransaction hs] using h
    exact .inr ⟨rfl, hostTurn_runState_cases hne⟩

end Sys2Proof.Machine
end

section
/-!
PROOFS. What a step depends on (spec 20_memory.md sections 4 and 6, 50_suspend_resume.md section 6). Two states that
agree on what an effect reads have the same done to them: each field is written alike in both or left as it was in both.
The dependence on memory, on the output, on the fault record and on the host's moves are three readings of this.
-/
namespace Sys2Proof.Machine

open Sys2Proof.Safety

/-! ## The same done to two states -/

/-- A field that was `x` in one state and `x'` in the other is now `y` and `y'`: written alike, or left in both. -/
def Carried {α : Type} (x x' y y' : α) : Prop :=
  y' = y ∨ (y = x ∧ y' = x')

theorem Carried.eq_of_eq {α : Type} {x x' y y' : α} (h : Carried x x' y y') (hx : x' = x) : y' = y := by
  rcases h with h | ⟨h, h'⟩
  · exact h
  · rw [h, h', hx]

/-- The fields an effect depends on besides the operands it reads. -/
structure SameInputs (s s' : State) : Prop where
  pc : s'.pc = s.pc
  rb : s'.rb = s.rb
  src : s'.src = s.src
  starveFault : s'.starveFault = s.starveFault
  runState : s'.runState = s.runState

/-- What a step does to `s`, which becomes `t`, is what it does to `s'`, which becomes `u`. -/
structure SameChange (s s' t u : State) : Prop extends SameInputs t u where
  mem : (t.mem = s.mem ∧ u.mem = s'.mem) ∨ ∃ n v, t.mem = s.mem.write n v ∧ u.mem = s'.mem.write n v
  out : Carried s.out s'.out t.out u.out
  fault : Carried s.fault s'.fault t.fault u.fault
  host : SameHost s t
  host' : SameHost s' u
  report : s.runState = .running → u.report = t.report

section
variable {s s' t u : State}

theorem SameChange.mem_eq (h : SameChange s s' t u) (hm : s'.mem = s.mem) : u.mem = t.mem := by
  rcases h.mem with ⟨ht, hu⟩ | ⟨n, v, ht, hu⟩ <;> rw [ht, hu, hm]

theorem SameChange.read_carried (h : SameChange s s' t u) (b : Nat) :
    Carried (s.mem.read b) (s'.mem.read b) (t.mem.read b) (u.mem.read b) := by
  rcases h.mem with ⟨ht, hu⟩ | ⟨n, v, ht, hu⟩
  · exact .inr ⟨by rw [ht], by rw [hu]⟩
  · rw [ht, hu, Mem.read_write, Mem.read_write]
    by_cases hb : b = n
    · exact .inl (by rw [if_pos hb, if_pos hb])
    · exact .inr ⟨if_neg hb, if_neg hb⟩

/-- From states that differ in memory and in the host's moves only, a step leads to such states. -/
theorem SameChange.eq_with (h : SameChange s s' t u) (hout : s'.out = s.out) (hfault : s'.fault = s.fault)
    (hstarted : s'.started = s.started) : u = { t with mem := u.mem, moves := u.moves } := by
  have hs : u.started = t.started := by rw [h.host'.started, hstarted, h.host.started]
  rw [← h.pc, ← h.rb, ← h.src, ← h.starveFault, ← h.runState, ← h.out.eq_of_eq hout, ← h.fault.eq_of_eq hfault, ← hs]

theorem SameInputs.raise (h : SameInputs s s') (f : FaultRecord) : SameChange s s' (s.raise f) (s'.raise f) where
  pc := h.pc
  rb := h.rb
  src := h.src
  starveFault := h.starveFault
  runState := rfl
  mem := .inl ⟨rfl, rfl⟩
  out := .inr ⟨rfl, rfl⟩
  fault := .inl rfl
  host := sameHost_raise f s
  host' := sameHost_raise f s'
  report _ := rfl

/-! ## Effects with the same inputs -/

/-- Settling both effects does the same to both states. -/
def SameOutcome (s s' : State) (r r' : Except FaultRecord State) : Prop :=
  ∃ t u, settle s r = .next t ∧ settle s' r' = .next u ∧ SameChange s s' t u

theorem SameChange.outcome (h : SameChange s s' t u) : SameOutcome s s' (.ok t) (.ok u) :=
  ⟨t, u, rfl, rfl, h⟩

theorem SameInputs.error (h : SameInputs s s') (f : FaultRecord) : SameOutcome s s' (.error f) (.error f) :=
  ⟨_, _, rfl, rfl, h.raise f⟩

/-- Two effects that begin with the same check go on with its value, or raise its fault alike. -/
theorem SameInputs.bind {α : Type} (h : SameInputs s s') {r r' : Except FaultRecord α} (hr : r' = r)
    {k k' : α → Except FaultRecord State} (hk : ∀ a, SameOutcome s s' (k a) (k' a)) :
    SameOutcome s s' (r >>= k) (r' >>= k') := by
  subst hr
  cases r' with
  | error f => exact h.error f
  | ok a => exact hk a

theorem SameInputs.checkRange_eq (h : SameInputs s s') (c : Variant) (v : Int) :
    checkRange c s' v = checkRange c s v := by
  simp only [checkRange, h.pc]

theorem SameInputs.srcAddr_eq (h : SameInputs s s') (a : Src) : srcAddr s' a = srcAddr s a := by
  cases a <;> simp only [srcAddr, h.rb]

theorem SameInputs.dstAddr_eq (h : SameInputs s s') (d : Dst) : dstAddr s' d = dstAddr s d := by
  cases d <;> simp only [dstAddr, h.rb]

theorem SameInputs.resolve_eq (h : SameInputs s s') (c : Variant) (x : Int) : resolve c s' x = resolve c s x := by
  rw [resolve, resolve, h.checkRange_eq]

theorem SameInputs.writeAddr_eq (h : SameInputs s s') (c : Variant) (d : Dst) :
    writeAddr c s' d = writeAddr c s d := by
  rw [writeAddr, writeAddr, h.resolve_eq, h.dstAddr_eq]

theorem SameInputs.pcPlus_eq (h : SameInputs s s') (c : Variant) (n : Nat) : pcPlus c s' n = pcPlus c s n := by
  simp only [pcPlus, checkRange, h.pc]

theorem SameInputs.setPc (h : SameInputs s s') (n : Nat) : SameChange s s' (s.setPc n) (s'.setPc n) where
  pc := rfl
  rb := h.rb
  src := h.src
  starveFault := h.starveFault
  runState := h.runState
  mem := .inl ⟨rfl, rfl⟩
  out := .inr ⟨rfl, rfl⟩
  fault := .inr ⟨rfl, rfl⟩
  host := ⟨rfl, rfl, rfl⟩
  host' := ⟨rfl, rfl, rfl⟩
  report hs := by simp [State.report, h.runState, hs]

theorem SameInputs.store (h : SameInputs s s') (n : Nat) (v : Int) (k : Nat) :
    SameChange s s' ((s.store n v).setPc k) ((s'.store n v).setPc k) :=
  { h.setPc k with mem := .inr ⟨n, v, rfl, rfl⟩, host := ⟨rfl, rfl, rfl⟩, host' := ⟨rfl, rfl, rfl⟩ }

theorem computeWith_sameOutcome (h : SameInputs s s') {c : Variant} (f : Int → Int → Int) {a b : Src} (d : Dst)
    (ha : readOperand c s' a = readOperand c s a) (hb : readOperand c s' b = readOperand c s b) :
    SameOutcome s s' (computeWith c f a b d s) (computeWith c f a b d s') :=
  h.bind ha fun _ => h.bind hb fun _ => h.bind (h.writeAddr_eq c d) fun n => h.bind (h.checkRange_eq c _) fun v =>
    h.bind (h.pcPlus_eq c 4) fun k => (h.store n v k).outcome

theorem jumpWith_sameOutcome (h : SameInputs s s') {c : Variant} (taken : Int → Bool) {a b : Src}
    (ha : readOperand c s' a = readOperand c s a) (hb : readOperand c s' b = readOperand c s b) :
    SameOutcome s s' (jumpWith c taken a b s) (jumpWith c taken a b s') := by
  refine h.bind ha fun x => h.bind hb fun y => ?_
  cases taken x with
  | true => exact h.bind rfl fun n => (h.setPc n).outcome
  | false => exact h.bind (h.pcPlus_eq c 3) fun n => (h.setPc n).outcome

theorem SameInputs.wait (h : SameInputs s s') :
    SameChange s s' { s with runState := .awaitingInput } { s' with runState := .awaitingInput } :=
  { h.setPc s.pc with
    pc := h.pc, runState := rfl, host := ⟨rfl, rfl, rfl⟩, host' := ⟨rfl, rfl, rfl⟩, report := fun _ => rfl }

theorem inWith_sameOutcome (h : SameInputs s s') (c : Variant) (d : Dst) :
    SameOutcome s s' (inWith c d s) (inWith c d s') := by
  refine h.bind (h.writeAddr_eq c d) fun n => ?_
  have hp : s'.src.pull = s.src.pull := congrArg Source.pull h.src
  rw [hp]
  cases s.src.pull with
  | some r =>
    exact h.bind (h.checkRange_eq c r.1) fun v => h.bind (h.pcPlus_eq c 2) fun k => SameChange.outcome
      { h.store n v k with src := rfl, host := ⟨rfl, rfl, rfl⟩, host' := ⟨rfl, rfl, rfl⟩ }
  | none =>
    dsimp only
    by_cases hs : s.starveFault = true
    · rw [if_pos hs, if_pos (h.starveFault.trans hs), h.pc]
      exact h.error _
    · rw [if_neg hs, if_neg (by rwa [h.starveFault])]
      exact h.wait.outcome

theorem outWith_sameOutcome (h : SameInputs s s') {c : Variant} {a : Src}
    (ha : readOperand c s' a = readOperand c s a) : SameOutcome s s' (outWith c a s) (outWith c a s') :=
  h.bind ha fun _ => h.bind (h.pcPlus_eq c 2) fun k => SameChange.outcome
    { h.setPc k with
      runState := rfl, out := .inl rfl, host := ⟨rfl, rfl, rfl⟩, host' := ⟨rfl, rfl, rfl⟩, report := fun _ => rfl }

theorem arbWith_sameOutcome (h : SameInputs s s') {c : Variant} {a : Src}
    (ha : readOperand c s' a = readOperand c s a) : SameOutcome s s' (arbWith c a s) (arbWith c a s') :=
  h.bind ha fun x => h.bind (h.rb ▸ h.checkRange_eq c (s.rb + x)) fun _ => h.bind (h.pcPlus_eq c 2) fun k =>
    SameChange.outcome { h.setPc k with rb := rfl, host := ⟨rfl, rfl, rfl⟩, host' := ⟨rfl, rfl, rfl⟩ }

theorem haltWith_sameOutcome (h : SameInputs s s') (c : Variant) :
    SameOutcome s s' (haltWith c s) (haltWith c s') :=
  h.bind (h.pcPlus_eq c 1) fun k => SameChange.outcome
    { h.setPc k with
      runState := rfl, host := ⟨rfl, rfl, rfl⟩, host' := ⟨rfl, rfl, rfl⟩, report := fun _ => rfl }

/-- An effect does the same to two states in which its operands read alike. -/
theorem effectWith_sameOutcome (h : SameInputs s s') {c : Variant} {i : Instr}
    (hr : ∀ a ∈ i.sources, readOperand c s' a = readOperand c s a) :
    SameOutcome s s' (effectWith c i s) (effectWith c i s') := by
  cases i with
  | add a b d | mul a b d | lt a b d | eq a b d =>
    exact computeWith_sameOutcome h _ d (hr a (by simp [Instr.sources])) (hr b (by simp [Instr.sources]))
  | jnz a b | jz a b =>
    exact jumpWith_sameOutcome h _ (hr a (by simp [Instr.sources])) (hr b (by simp [Instr.sources]))
  | inp d => exact inWith_sameOutcome h c d
  | out a => exact outWith_sameOutcome h (hr a (by simp [Instr.sources]))
  | arb a => exact arbWith_sameOutcome h (hr a (by simp [Instr.sources]))
  | hlt => exact haltWith_sameOutcome h c

/-! ## The cells a step reads -/

theorem pc_mem_stepReads (s : State) : s.pc ∈ stepReads s := by
  unfold stepReads
  split
  next i _ => simp [cellsRead, Instr.length]
  next => exact List.mem_singleton_self _

theorem word_mem_stepReads {i : Instr} (hi : fetchInstr s = .ok i) {j : Nat} (hj : j ≤ i.arity) :
    s.pc + j ∈ stepReads s := by
  have hlt : j < i.length := by rw [Instr.length]; omega
  simp [stepReads, hi, cellsRead, hlt]

theorem operand_mem_stepReads {i : Instr} (hi : fetchInstr s = .ok i) {a : Src} (ha : a ∈ i.sources) {x : Int}
    (hx : srcAddr s a = some x) : x.toNat ∈ stepReads s := by
  simp only [stepReads, hi, cellsRead, List.mem_append]
  exact .inr (List.mem_map_of_mem (List.mem_filterMap.2 ⟨a, ha, hx⟩))

/-- Two states that agree on the cells the step reads fetch the same (R71 to R73). -/
theorem fetchInstr_eq_of_reads (h : SameInputs s s') (hm : ∀ b ∈ stepReads s, s'.mem.read b = s.mem.read b) :
    fetchInstr s' = fetchInstr s := by
  have hw : s'.mem.read s'.pc = s.mem.read s.pc := by
    rw [h.pc, hm _ (pc_mem_stepReads s)]
  cases hd : decodeWord Config.spec (s.mem.read s.pc) with
  | error e => rw [fetchInstr_error hd, fetchInstr_error (hw ▸ hd)]
  | ok hdr =>
    have hi := fetchInstr_ok hd
    rw [hi, fetchInstr_ok (hw ▸ hd), h.pc]
    refine congrArg Except.ok (header_instr_congr hdr (p := fun j => s'.mem.read (s.pc + j))
      (q := fun j => s.mem.read (s.pc + j)) fun j _ hj => ?_)
    exact hm _ (word_mem_stepReads hi (by simpa using hj))

/-- An address that passes its checks is the number itself (R34). -/
theorem resolve_ok_toNat {c : Variant} {x : Int} {n : Nat} (h : resolve c s x = .ok n) : n = x.toNat := by
  obtain ⟨y, hy, hn⟩ := ok_of_bind_ok h
  obtain ⟨-, rfl⟩ := checkRange_eq_ok_iff.1 hy
  change checkAddr c y = .ok n at hn
  unfold checkAddr at hn
  split at hn
  next => cases hn
  next =>
    split at hn <;> cases hn
    rfl

/-- The operands of the fetched instruction are among the cells the step reads. -/
theorem readOperand_eq_of_reads (h : SameInputs s s') (hm : ∀ b ∈ stepReads s, s'.mem.read b = s.mem.read b)
    {i : Instr} (hi : fetchInstr s = .ok i) (c : Variant) {a : Src} (ha : a ∈ i.sources) :
    readOperand c s' a = readOperand c s a := by
  unfold readOperand
  rw [h.srcAddr_eq]
  cases hx : srcAddr s a with
  | none => rfl
  | some x =>
    dsimp only
    rw [h.resolve_eq]
    cases hn : resolve c s x with
    | error f => rfl
    | ok n =>
      rw [bind_ok rfl, bind_ok rfl, resolve_ok_toNat hn, hm _ (operand_mem_stepReads hi ha hx)]

/-- A cycle does the same to two states with the same inputs that agree on the cells it reads. -/
theorem cycle_sameChange (h : SameInputs s s') (hm : ∀ b ∈ stepReads s, s'.mem.read b = s.mem.read b) :
    ∃ t u, cycle s = .next t ∧ cycle s' = .next u ∧ SameChange s s' t u := by
  unfold cycle
  rw [fetchInstr_eq_of_reads h hm]
  cases hi : fetchInstr s with
  | error f => exact ⟨_, _, rfl, rfl, h.raise f⟩
  | ok i =>
    dsimp only
    rw [exec_eq_settle, exec_eq_settle]
    exact effectWith_sameOutcome h fun a ha => readOperand_eq_of_reads h hm hi _ ha

end

/-- Settles O41: the two states have the same inputs, and what is done to both leaves them equal but for memory. -/
theorem stepDependsOnlyOnCellsRead : Obligations.StepDependsOnlyOnCellsRead := by
  intro s m hm
  obtain ⟨t, u, ht, hu, h⟩ := cycle_sameChange (s := s) (s' := { s with mem := m }) ⟨rfl, rfl, rfl, rfl, rfl⟩ hm
  refine ⟨t, u, ht, hu, ?_, h.read_carried⟩
  have hmoves : u.moves = t.moves := by rw [h.host'.moves, h.host.moves]
  rw [h.eq_with rfl rfl rfl, hmoves]

/-- Settles O42: in a transaction both states are RUNNING, and with the same memory a step reads the same. -/
theorem stepIgnoresOutputAndHost : Obligations.StepIgnoresOutputAndHost := by
  intro s s' hs hs' hm hpc hrb hsrc hpol
  have hrun := ((State.inTransaction_iff s).1 hs).1
  have hrun' := ((State.inTransaction_iff s').1 hs').1
  obtain ⟨t, u, ht, hu, h⟩ := cycle_sameChange ⟨hpc, hrb, hsrc, hpol, hrun'.trans hrun.symm⟩ fun b _ => by rw [hm]
  exact ⟨t, u, (step_of_inTransaction hs).trans ht, (step_of_inTransaction hs').trans hu, h.mem_eq hm, h.pc, h.rb,
    h.src, h.runState, h.report hrun⟩

end Sys2Proof.Machine
end

section
/-!
PROOFS. What each instruction does where its addresses exist (spec 41_arithmetic.md to 46_halt.md): its meaning is its
effect, settled, and its effect is given by the law of its shared operation.
-/
namespace Sys2Proof.Machine

open Sys2Proof.Safety

/-! ## The instructions that compute a cell -/

/-- A `P3W` instruction whose addresses exist stores its result, advances by 4 and changes nothing else. -/
theorem exists_stored_of_computeWith {f : Int → Int → Int} {i : Instr} {a b : Src} {d : Dst} {s : State}
    (hi : ∀ s, effectWith Config.spec i s = computeWith Config.spec f a b d s) (hs : i.sources = [a, b])
    (hd : i.dest = some d) (h : Resolvable s i) :
    ∃ t, exec i s = .next t ∧ Stored s t (dstAddr s d).toNat (f (value s a) (value s b)) 4 := by
  rw [exec_eq_settle, hi, computeWith_ok f (fun _ => resolvable_src h (by simp [hs]))
    (fun _ => resolvable_src h (by simp [hs])) (resolvable_dst h hd)]
  exact ⟨_, rfl, stored_of_store s _ _ 4⟩

/-- Settles O24: ADD computes the sum. -/
theorem addStoresSum : Obligations.AddStoresSum := fun _ _ _ _ =>
  exists_stored_of_computeWith (fun _ => rfl) rfl rfl

/-- Settles O25: MUL computes the product. -/
theorem mulStoresProduct : Obligations.MulStoresProduct := fun _ _ _ _ =>
  exists_stored_of_computeWith (fun _ => rfl) rfl rfl

theorem truth_lessThan (x y : Int) : truth (lessThan x y) = if x < y then 1 else 0 := by
  simp [truth, lessThan]

theorem truth_equals (x y : Int) : truth (equals x y) = if x = y then 1 else 0 := by
  simp [truth, equals]

/-- Settles O26: LT computes the truth of the order (R81). -/
theorem ltStoresTruth : Obligations.LtStoresTruth := fun a b _ s h =>
  truth_lessThan (value s a) (value s b) ▸ exists_stored_of_computeWith (fun _ => rfl) rfl rfl h

/-- Settles O27: EQ computes the truth of the equality (R81). -/
theorem eqStoresTruth : Obligations.EqStoresTruth := fun a b _ s h =>
  truth_equals (value s a) (value s b) ▸ exists_stored_of_computeWith (fun _ => rfl) rfl rfl h

/-- An instruction whose parameters all are the cell `n` in position mode has its addresses. -/
theorem resolvable_of_positions {s : State} {n : Nat} {i : Instr} (h : addresses s i = [(n : Int), n, n]) :
    Resolvable s i := by
  simp [Resolvable, h]

/-- Settles O37: the two operands are the cell's old value, and the result goes to the same cell. -/
theorem aliasedOperandsReadFirst : Obligations.AliasedOperandsReadFirst := by
  intro s n
  refine ⟨?_, ?_, ?_, ?_⟩
  · rw [Int.two_mul]
    exact addStoresSum _ _ _ s (resolvable_of_positions rfl)
  · exact mulStoresProduct _ _ _ s (resolvable_of_positions rfl)
  · simpa [dstAddr] using ltStoresTruth (.position n) (.position n) (.position n) s (resolvable_of_positions rfl)
  · simpa [dstAddr] using eqStoresTruth (.position n) (.position n) (.position n) s (resolvable_of_positions rfl)

/-- Settles O38: the next step fetches the sum as its opcode word, and its parameter words are not written. -/
theorem storeSeenByNextFetch : Obligations.StoreSeenByNextFetch := by
  intro a b d s h hs hres hd hdec
  obtain ⟨t, ht, hst⟩ := addStoresSum a b d s hres
  have hn : (dstAddr s d).toNat = s.pc + 4 := by omega
  rw [hn] at hst
  have hword : t.mem.read t.pc = value s a + value s b := by rw [hst.pc, hst.mem, if_pos rfl]
  have hparam : ∀ j, t.mem.read (t.pc + (j + 1)) = s.mem.read (s.pc + (j + 5)) := fun j => by
    rw [hst.pc, hst.mem, if_neg (by omega), show s.pc + 4 + (j + 1) = s.pc + (j + 5) by omega]
  have hin : t.inTransaction = true := by
    rw [State.inTransaction_iff, hst.runState, hst.started]
    exact (State.inTransaction_iff s).1 hs
  exact ⟨t, ht, by rw [stepRunsDecodedInstruction t h hin (hword ▸ hdec), hparam 0, hparam 1, hparam 2]⟩

/-! ## Input and output -/

/-- Settles O30: the three cases of `Pull`. -/
theorem pullTakesOneValue : Obligations.PullTakesOneValue :=
  ⟨fun _ _ => rfl, rfl, fun f n => ⟨Config.callableValue f n, rfl⟩⟩

/-- Settles O28: but for the source, an IN with input is a store and an advance. -/
theorem inStoresInput : Obligations.InStoresInput := by
  intro d s v rest h hp
  rw [exec_eq_settle, effectWith, inWith_ok (resolvable_dst h rfl), hp]
  exact ⟨_, rfl, rfl, stored_of_store s _ v 2⟩

/-- Settles O29: the policy decides what an IN without input does. -/
theorem inWithoutInput : Obligations.InWithoutInput := by
  intro d s h hp
  rw [exec_eq_settle, effectWith, inWith_ok (resolvable_dst h rfl), hp]
  exact ⟨fun hs => by simp [hs, settle], fun hs => by simp [hs, settle]⟩

/-- Settles O31: the operand is latched, and the report of the state is the latched value. -/
theorem outEmitsValue : Obligations.OutEmitsValue := by
  intro a s h
  rw [exec_eq_settle, effectWith, outWith_ok fun _ => resolvable_src h (List.mem_singleton_self a)]
  exact ⟨rfl, rfl⟩

/-! ## Jumps, the base and the halt -/

/-- A conditional jump whose addresses exist: to a target that exists, to one that does not, or not taken. -/
theorem exec_of_jumpWith (taken : Int → Bool) {i : Instr} {a b : Src} {s : State}
    (hi : ∀ s, effectWith Config.spec i s = jumpWith Config.spec taken a b s) (hs : i.sources = [a, b])
    (h : Resolvable s i) :
    (taken (value s a) = true → 0 ≤ value s b → exec i s = .next { s with pc := (value s b).toNat }) ∧
    (taken (value s a) = true → value s b < 0 → exec i s = .next (s.raise ⟨.addressError, value s b⟩)) ∧
    (taken (value s a) = false → exec i s = .next { s with pc := s.pc + 3 }) := by
  rw [exec_eq_settle, hi,
    jumpWith_ok taken (fun _ => resolvable_src h (by simp [hs])) (fun _ => resolvable_src h (by simp [hs]))]
  refine ⟨fun ht hb => ?_, fun ht hb => ?_, fun ht => ?_⟩
  · rw [if_pos ht, if_neg (by omega)]
    rfl
  · rw [if_pos ht, if_pos hb]
    rfl
  · rw [if_neg (by simp [ht])]
    rfl

/-- Settles O32: JNZ's test is that the operand is not 0. -/
theorem jnzJumps : Obligations.JnzJumps := by
  intro a b s h
  simpa [isNonZero] using exec_of_jumpWith isNonZero (fun _ => rfl) rfl h

/-- Settles O33: JZ's test is that the operand is 0. -/
theorem jzJumps : Obligations.JzJumps := by
  intro a b s h
  simpa [isZero] using exec_of_jumpWith isZero (fun _ => rfl) rfl h

/-- Settles O34: the sum with the old base is stored whatever its sign. -/
theorem arbAddsToBase : Obligations.ArbAddsToBase := by
  intro a s h
  rw [exec_eq_settle, effectWith, arbWith_ok fun _ => resolvable_src h (List.mem_singleton_self a)]
  rfl

/-- Settles O35: HLT has no check, and the report of HALTED is the halt. -/
theorem hltHalts : Obligations.HltHalts := fun s =>
  ⟨by rw [exec_eq_settle, effectWith, haltWith_spec]; rfl, rfl⟩

end Sys2Proof.Machine
end

section
/-!
PROOFS. Transactions (spec 50_suspend_resume.md sections 2 to 7). A transaction is cycles until the state has left
RUNNING; what every cycle keeps holds where it ends, and the same cycles are steps of the machine once the host's moves
have opened the transaction. Drain mode is such transactions one after another.
-/
namespace Sys2Proof.Machine

open Sys2Proof.Safety

/-! ## Host moves and instances -/

/-- Settles O44: the host's turn is its next move, and a Resume depends on whether the instance is live. -/
theorem hostMovesBetweenTransactions : Obligations.HostMovesBetweenTransactions := by
  intro s hs
  rw [step_of_not_inTransaction hs]
  refine ⟨fun hm => ?_, fun img ms hm => ?_, fun src ms hm => ?_, fun b ms hm hh hf => ?_, fun b ms hm ht => ?_⟩
  · rw [hostTurn_of_moves_nil hm]
  · rw [hostTurn_of_moves_cons hm]
    rfl
  · rw [hostTurn_of_moves_cons hm]
    rfl
  · rw [hostTurn_of_moves_cons hm, HostMove.apply, State.begin_of_live b { s with moves := ms } hh hf]
  · rw [hostTurn_of_moves_cons hm, HostMove.apply, State.begin_of_terminal b { s with moves := ms } ht]

/-- Settles O51: only entry `k` is set. -/
theorem instancesAreIsolated : Obligations.InstancesAreIsolated := by
  intro sys j k hjk
  unfold Instances.stepAt
  split
  next => rfl
  next s _ =>
    obtain ⟨t, ht⟩ := stepAlwaysAnswers s
    rw [ht]
    exact List.getElem?_set_ne hjk.symm

/-! ## Runs of cycles -/

/-- Induction along a run of cycles that ends in `t`: it stops there outside RUNNING, and before that it goes on with
the next cycle. -/
theorem runCycles_induction {t : State} {Q : Nat → State → Prop} (stop : ∀ n, t.runState ≠ .running → Q n t)
    (advance : ∀ n s u, s.runState = .running → cycle s = .next u → Q n u → Q (n + 1) s) {n : Nat} {s : State}
    (h : runCycles n s = some t) : Q n s := by
  have hstopped : ∀ n s, s.runState ≠ .running → runCycles n s = some t → Q n s := fun n s hrun h => by
    rw [runCycles_stopped n hrun] at h
    cases h
    exact stop n hrun
  induction n generalizing s with
  | zero => exact hstopped 0 s (fun hrun => by simp [runCycles, hrun] at h) h
  | succ n ih =>
    by_cases hrun : s.runState = .running
    · obtain ⟨u, hu⟩ := exists_cycle_eq_next s
      rw [runCycles_running n hrun hu] at h
      exact advance n s u hrun hu (ih h)
    · exact hstopped (n + 1) s hrun h

/-- What every cycle keeps holds where a run of cycles ends, and the run ends outside RUNNING. -/
theorem runCycles_end {P : State → Prop} (hstep : ∀ u v, P u → cycle u = .next v → P v) {n : Nat} {s t : State}
    (hs : P s) (h : runCycles n s = some t) : t.runState ≠ .running ∧ P t :=
  runCycles_induction (Q := fun _ s => P s → t.runState ≠ .running ∧ P t) (fun _ hend ht => ⟨hend, ht⟩)
    (fun _ s u _ hu ih hs => ih (hstep s u hs hu)) h hs

theorem runCycles_add {n : Nat} {s t : State} (k : Nat) (h : runCycles n s = some t) :
    runCycles (n + k) s = some t :=
  runCycles_induction (Q := fun n s => runCycles (n + k) s = some t) (fun n hend => runCycles_stopped (n + k) hend)
    (fun n s u hrun hu ih => by rw [Nat.add_right_comm, runCycles_running (n + k) hrun hu, ih]) h

/-- A transaction of a live instance that answers is a run of cycles and the report of its end (R122). -/
theorem resume_of_live_eq_some_iff {fuel : Nat} {src : Source} {b : Bool} {s t : State} {r : Report}
    (hh : s.runState ≠ .halted) (hf : s.runState ≠ .faulted) :
    resume fuel src b s = some (r, t) ↔
      runCycles fuel ((s.install src).begin b) = some t ∧ t.report = some r := by
  rw [resume_of_live fuel src b hh hf]
  simp only [Option.bind_eq_some_iff, Option.map_eq_some_iff, Prod.mk.injEq]
  exact ⟨fun ⟨_, hu, _, hr, rfl, rfl⟩ => ⟨hu, hr⟩, fun ⟨hu, hr⟩ => ⟨t, hu, r, hr, rfl, rfl⟩⟩

/-- Settles O46: a run of cycles that has ended goes no further. -/
theorem moreFuelSameReport : Obligations.MoreFuelSameReport := by
  intro n k src b s r h
  obtain ⟨r, t⟩ := r
  by_cases hterm : s.runState = .halted ∨ s.runState = .faulted
  · rwa [resume_of_terminal _ src b hterm] at h ⊢
  · obtain ⟨hh, hf⟩ := not_or.1 hterm
    rw [resume_of_live_eq_some_iff hh hf] at h ⊢
    exact ⟨runCycles_add k h.1, h.2⟩

/-! ## The end of a transaction -/

/-- An instance in drain mode that does not wait for input. -/
def NeverWaits (s : State) : Prop :=
  s.starveFault = true ∧ s.runState ≠ .awaitingInput

/-- Under the drain policy an IN without input faults, so no cycle leaves the state waiting (R95, R130). -/
theorem neverWaits_cycle {s t : State} (hs : NeverWaits s) (h : cycle s = .next t) :
    NeverWaits t := by
  obtain ⟨hpol, hwait⟩ := hs
  rcases cycle_cases h with ⟨f, rfl⟩ | ⟨i, -, hc⟩
  · exact ⟨hpol, by simp⟩
  · refine ⟨hc.sameHost.starveFault.trans hpol, ?_⟩
    cases hc with
    | wait hp hfalse => simp [hfalse] at hpol
    | output | halt => simp
    | store | input | base | jump => exact hwait

theorem State.report_eq_needInput_iff (s : State) : s.report = some .needInput ↔ s.runState = .awaitingInput := by
  unfold State.report
  split <;> simp_all

/-- Settles O48: a run of cycles ends outside RUNNING, and under the drain policy it never comes to wait. -/
theorem resumeReportsItsState : Obligations.ResumeReportsItsState := by
  intro fuel src b s t r h
  by_cases hterm : s.runState = .halted ∨ s.runState = .faulted
  · rw [resume_of_terminal fuel src b hterm, Option.map_eq_some_iff] at h
    obtain ⟨r, hr, heq⟩ := h
    cases heq
    refine ⟨fun hrun => by simp [hrun] at hterm, hr, fun _ hneed => ?_⟩
    simp [(State.report_eq_needInput_iff s).1 (hneed ▸ hr)] at hterm
  · obtain ⟨hh, hf⟩ := not_or.1 hterm
    obtain ⟨hrun, hr⟩ := (resume_of_live_eq_some_iff hh hf).1 h
    have hbegin : b = true → NeverWaits ((s.install src).begin b) := fun hb => by
      rw [State.begin_of_live b (s.install src) hh hf]
      exact ⟨hb, by simp⟩
    obtain ⟨hend, hwait⟩ := runCycles_end (P := fun u => b = true → NeverWaits u)
      (fun _ _ hu hc hb => neverWaits_cycle (hu hb) hc) hbegin hrun
    exact ⟨hend, hr, fun hb hneed => (hwait hb).2 ((State.report_eq_needInput_iff t).1 (hneed ▸ hr))⟩

/-- Settles O45: the cycle makes the IN wait again, in the state the transaction began from. -/
theorem awaitingInputRetries : Obligations.AwaitingInputRetries := by
  intro fuel s d hrun hi hres hsrc hpol hstarted
  have hbegin : (s.install (.queue [])).begin false = { s with runState := .running } := by
    rw [State.begin_of_live false (s.install (.queue [])) (by simp [hrun]) (by simp [hrun]), State.install, ← hsrc,
      ← hpol, ← hstarted]
  have hcycle : cycle { s with runState := .running } = .next s := by
    have hi' : fetchInstr { s with runState := .running } = .ok (.inp d) := hi
    have hexec := (inWithoutInput d { s with runState := .running } hres (by simp [hsrc, Source.pull])).1 hpol
    rw [cycle, hi']
    exact hexec.trans (by rw [← hrun])
  refine (resume_of_live_eq_some_iff (by simp [hrun]) (by simp [hrun])).2
    ⟨?_, (State.report_eq_needInput_iff s).2 hrun⟩
  rw [hbegin, runCycles_running fuel rfl hcycle, runCycles_stopped fuel (by simp [hrun])]

/-! ## Transactions are steps -/

/-- A cycle does not see the host's moves to come, and keeps them. -/
theorem cycle_with_moves {s t : State} (ms : List HostMove) (h : cycle s = .next t) :
    cycle { s with moves := ms } = .next { t with moves := ms } := by
  obtain ⟨t', u, ht, hu, hc⟩ := cycle_sameChange (s := s) (s' := { s with moves := ms }) ⟨rfl, rfl, rfl, rfl, rfl⟩
    fun _ _ => rfl
  obtain rfl : t = t' := by simpa [h] using ht
  rw [hu, hc.eq_with rfl rfl rfl, hc.mem_eq rfl, hc.host'.moves]

theorem cycle_started {s t : State} (h : cycle s = .next t) : t.started = s.started := by
  rcases cycle_cases h with ⟨f, rfl⟩ | ⟨i, -, hc⟩
  · rfl
  · exact hc.sameHost.started

/-- On an instance that the host has started a run of cycles is a run of steps, whatever moves are still to come. -/
theorem exists_steps_of_runCycles {n : Nat} {s t : State} (ms : List HostMove) (hs : s.started = true)
    (h : runCycles n s = some t) : ∃ k, steps k { s with moves := ms } = .next { t with moves := ms } := by
  refine runCycles_induction (Q := fun _ s => s.started = true →
    ∃ k, steps k { s with moves := ms } = .next { t with moves := ms }) (fun _ _ _ => ⟨0, rfl⟩) ?_ h hs
  intro _ s u hrun hu ih hs
  obtain ⟨k, hk⟩ := ih ((cycle_started hu).trans hs)
  have hin : State.inTransaction { s with moves := ms } = true := (State.inTransaction_iff _).2 ⟨hrun, hs⟩
  exact ⟨k + 1, by rw [steps_succ k ((step_of_inTransaction hin).trans (cycle_with_moves ms hu)), hk]⟩

/-- Settles O47: two host moves open the transaction, and its cycles are steps. -/
theorem resumeIsStepping : Obligations.ResumeIsStepping := by
  intro fuel src b s t r ms hs hh hf h
  obtain ⟨hrun, -⟩ := (resume_of_live_eq_some_iff hh hf).1 h
  have hbegin := State.begin_of_live b (s.install src) hh hf
  obtain ⟨k, hk⟩ := exists_steps_of_runCycles ms (by rw [hbegin]) hrun
  obtain ⟨-, -, hinstall, -, -⟩ :=
    hostMovesBetweenTransactions { s with moves := .install src :: .resume b :: ms } hs
  obtain ⟨-, -, -, hresume, -⟩ :=
    hostMovesBetweenTransactions { s with src := src, moves := .resume b :: ms } hs
  refine ⟨k + 2, ?_⟩
  rw [steps_succ _ (hinstall src _ rfl), steps_succ _ (hresume b _ rfl hh hf), ← hk, hbegin]
  rfl

/-! ## Drain mode -/

/-- The result of a drain with earlier outputs before its own. -/
def withEarlier (outs : List Int) (x : Report × List Int × State) : Report × List Int × State :=
  (x.1, outs ++ x.2.1, x.2.2)

section Drain
variable {fuel : Nat} {src : Source} {s t : State} (n : Nat) (outs : List Int)

theorem drain_succ_of_none (h : resume fuel src true s = none) : drain fuel (n + 1) src outs s = none := by
  simp only [drain, h]

theorem drain_succ_of_output {v : Int} (h : resume fuel src true s = some (.output v, t)) :
    drain fuel (n + 1) src outs s = drain fuel n t.src (outs ++ [v]) t := by
  simp only [drain, h]

theorem drain_succ_of_end {r : Report} (h : resume fuel src true s = some (r, t)) (hr : ∀ v, r ≠ .output v) :
    drain fuel (n + 1) src outs s = some (r, outs, t) := by
  cases r with
  | output v => exact absurd rfl (hr v)
  | needInput | halted | fault => simp only [drain, h]

/-- The outputs so far only stand before those to come. -/
theorem drain_eq_map (fuel n : Nat) (src : Source) (outs : List Int) (s : State) :
    drain fuel n src outs s = (drain fuel n src [] s).map (withEarlier outs) := by
  induction n generalizing src outs s with
  | zero => rfl
  | succ n ih =>
    cases h : resume fuel src true s with
    | none => rw [drain_succ_of_none n _ h, drain_succ_of_none n _ h, Option.map_none]
    | some x =>
      obtain ⟨r, t⟩ := x
      by_cases hr : ∃ v, r = .output v
      · obtain ⟨v, rfl⟩ := hr
        rw [drain_succ_of_output n _ h, drain_succ_of_output n _ h, ih, ih t.src ([] ++ [v]), Option.map_map]
        congr 1
        funext x
        simp [withEarlier]
      · have hr' : ∀ v, r ≠ .output v := fun v hv => hr ⟨v, hv⟩
        rw [drain_succ_of_end n _ h hr', drain_succ_of_end n _ h hr', Option.map_some, withEarlier, List.append_nil]

end Drain

/-- Settles O50: an output goes before those of the transactions that follow, and any other report ends the loop. -/
theorem drainCollectsOutputsInOrder : Obligations.DrainCollectsOutputsInOrder :=
  ⟨drain_eq_map, fun fuel n _ _ t v h => by
    rw [drain_succ_of_output n _ h, drain_eq_map fuel n t.src ([] ++ [v])]
    rfl, fun _ n _ _ _ _ h hr => drain_succ_of_end n [] h hr⟩

theorem State.report_eq_halted_iff (s : State) : s.report = some .halted ↔ s.runState = .halted := by
  unfold State.report
  split <;> simp_all

theorem State.report_eq_fault_iff (s : State) (f : FaultRecord) :
    s.report = some (.fault f) ↔ s.runState = .faulted ∧ s.fault = some f := by
  unfold State.report
  split <;> simp_all

/-- A state that reports neither an output nor NeedInput is the end of a run, and its report says which (R141). -/
theorem runOver_of_report {r : Report} {s : State} (h : s.report = some r) (hout : ∀ v, r ≠ .output v)
    (hneed : r ≠ .needInput) :
    s.runOver = true ∧ ((r = .halted ∧ s.runState = .halted) ∨ ∃ f, r = .fault f ∧ s.fault = some f) := by
  cases r with
  | output v => exact absurd rfl (hout v)
  | needInput => exact absurd rfl hneed
  | halted =>
    have hs := (State.report_eq_halted_iff s).1 h
    exact ⟨by simp [State.runOver, hs], .inl ⟨rfl, hs⟩⟩
  | fault f =>
    obtain ⟨hs, hf⟩ := (State.report_eq_fault_iff s f).1 h
    exact ⟨by simp [State.runOver, hs], .inr ⟨f, rfl, hf⟩⟩

/-- A drain ends with a transaction under the drain policy that reports no output. -/
theorem exists_resume_of_drain {fuel n : Nat} {src : Source} {outs outs' : List Int} {s t : State} {r : Report}
    (h : drain fuel n src outs s = some (r, outs', t)) :
    (∀ v, r ≠ .output v) ∧ ∃ src' s', resume fuel src' true s' = some (r, t) := by
  induction n generalizing src outs s with
  | zero => cases h
  | succ n ih =>
    cases hres : resume fuel src true s with
    | none =>
      rw [drain_succ_of_none n _ hres] at h
      cases h
    | some x =>
      obtain ⟨r', t'⟩ := x
      by_cases hr : ∃ v, r' = .output v
      · obtain ⟨v, rfl⟩ := hr
        rw [drain_succ_of_output n _ hres] at h
        exact ih h
      · have hr' : ∀ v, r' ≠ .output v := fun v hv => hr ⟨v, hv⟩
        rw [drain_succ_of_end n _ hres hr'] at h
        cases h
        exact ⟨hr', src, s, hres⟩

/-- Settles O49: the last transaction of a drain does not report NeedInput either. -/
theorem drainEndsHaltedOrFaulted : Obligations.DrainEndsHaltedOrFaulted := by
  intro fuel n inputs s t r outs h
  obtain ⟨hout, src, s', hres⟩ := exists_resume_of_drain h
  obtain ⟨-, hr, hneed⟩ := resumeReportsItsState fuel src true s' t r hres
  exact runOver_of_report hr hout (hneed rfl)

end Sys2Proof.Machine
end

section
/-!
PROOFS. The bounded variants (spec 40_execution_cycle.md R83, 20_memory.md R48, 60_exceptions.md R156). Every check of a
variant answers as the unbounded machine's or raises a limit fault, so every effect does; and what a variant holds has
passed its checks, so it fits the width.
-/
namespace Sys2Proof.Machine

open Sys2Proof.Safety

/-! ## As the unbounded machine, up to a limit fault -/

/-- The faults a variant's checks raise in `s` where the unbounded machine goes on: a value outside the width, with the
instruction's `pc`, and, where the capacity is finite, a cell above it. -/
def LimitFault (c : Variant) (s : State) (f : FaultRecord) : Prop :=
  f = ⟨.rangeError, s.pc⟩ ∨ c.memCap ≠ none ∧ f.cause = .capacityError

/-- A variant's result is the unbounded machine's or a limit fault. -/
def AgreesTo {α : Type} (c : Variant) (s : State) (r r₀ : Except FaultRecord α) : Prop :=
  r = r₀ ∨ ∃ f, r = .error f ∧ LimitFault c s f

section
variable {c : Variant} {s : State}

theorem LimitFault.bounded {f : FaultRecord} (h : LimitFault c s f) : BoundedFault f := by
  rcases h with rfl | ⟨-, h⟩
  · exact .inl rfl
  · exact .inr h

theorem AgreesTo.bind {α β : Type} {r r₀ : Except FaultRecord α} (h : AgreesTo c s r r₀)
    {k k₀ : α → Except FaultRecord β} (hk : ∀ a, AgreesTo c s (k a) (k₀ a)) :
    AgreesTo c s (r >>= k) (r₀ >>= k₀) := by
  rcases h with rfl | ⟨f, rfl, hf⟩
  · cases r with
    | error f => exact .inl rfl
    | ok a => exact hk a
  · exact .inr ⟨f, rfl, hf⟩

theorem AgreesTo.refl {α : Type} (r : Except FaultRecord α) : AgreesTo c s r r := .inl rfl

theorem holds_of_memCap_eq_none (h : c.memCap = none) (a : Nat) : c.holds a = true := by
  simp only [Variant.holds, h]

theorem checkRange_agreesTo (v : Int) : AgreesTo c s (checkRange c s v) (checkRange Config.spec s v) := by
  unfold checkRange
  split
  next => exact .inl rfl
  next => exact .inr ⟨_, rfl, .inl rfl⟩

theorem pcPlus_agreesTo (n : Nat) : AgreesTo c s (pcPlus c s n) (pcPlus Config.spec s n) :=
  (checkRange_agreesTo _).bind fun _ => .refl _

/-- An address above the capacity is a limit fault, since the capacity is then finite. -/
theorem limitFault_of_not_holds {a : Nat} {x : Int} (h : ¬ c.holds a = true) : LimitFault c s ⟨.capacityError, x⟩ :=
  .inr ⟨fun hcap => h (holds_of_memCap_eq_none hcap a), rfl⟩

theorem checkAddr_agreesTo (x : Int) : AgreesTo c s (checkAddr c x) (checkAddr Config.spec x) := by
  unfold checkAddr
  split
  next => exact .inl rfl
  next =>
    split
    next => exact .inl rfl
    next h => exact .inr ⟨_, rfl, limitFault_of_not_holds h⟩

theorem fetchCell_agreesTo (a : Nat) : AgreesTo c s (fetchCell c s a) (fetchCell Config.spec s a) := by
  unfold fetchCell
  split
  next => exact .inl rfl
  next h => exact .inr ⟨_, rfl, limitFault_of_not_holds h⟩

theorem resolve_agreesTo (x : Int) : AgreesTo c s (resolve c s x) (resolve Config.spec s x) :=
  (checkRange_agreesTo x).bind fun y => checkAddr_agreesTo y

theorem readOperand_agreesTo (a : Src) : AgreesTo c s (readOperand c s a) (readOperand Config.spec s a) := by
  unfold readOperand
  cases srcAddr s a with
  | none => exact .refl _
  | some x => exact (resolve_agreesTo x).bind fun _ => .refl _

theorem writeAddr_agreesTo (d : Dst) : AgreesTo c s (writeAddr c s d) (writeAddr Config.spec s d) :=
  resolve_agreesTo _

theorem computeWith_agreesTo (f : Int → Int → Int) (a b : Src) (d : Dst) :
    AgreesTo c s (computeWith c f a b d s) (computeWith Config.spec f a b d s) :=
  (readOperand_agreesTo a).bind fun _ => (readOperand_agreesTo b).bind fun _ => (writeAddr_agreesTo d).bind fun _ =>
    (checkRange_agreesTo _).bind fun _ => (pcPlus_agreesTo 4).bind fun _ => .refl _

theorem jumpWith_agreesTo (taken : Int → Bool) (a b : Src) :
    AgreesTo c s (jumpWith c taken a b s) (jumpWith Config.spec taken a b s) := by
  refine (readOperand_agreesTo a).bind fun x => (readOperand_agreesTo b).bind fun y => ?_
  cases taken x with
  | true => exact .refl _
  | false => exact (pcPlus_agreesTo 3).bind fun _ => .refl _

theorem inWith_agreesTo (d : Dst) : AgreesTo c s (inWith c d s) (inWith Config.spec d s) := by
  refine (writeAddr_agreesTo d).bind fun n => ?_
  cases s.src.pull with
  | none => exact .refl _
  | some r => exact (checkRange_agreesTo r.1).bind fun _ => (pcPlus_agreesTo 2).bind fun _ => .refl _

/-- Every effect of a variant is the unbounded machine's, or a limit fault. -/
theorem effectWith_agreesTo (i : Instr) : AgreesTo c s (effectWith c i s) (effectWith Config.spec i s) := by
  cases i with
  | add a b d | mul a b d | lt a b d | eq a b d => exact computeWith_agreesTo _ a b d
  | jnz a b | jz a b => exact jumpWith_agreesTo _ a b
  | inp d => exact inWith_agreesTo d
  | out a => exact (readOperand_agreesTo a).bind fun _ => (pcPlus_agreesTo 2).bind fun _ => .refl _
  | arb a =>
    exact (readOperand_agreesTo a).bind fun _ => (checkRange_agreesTo _).bind fun _ =>
      (pcPlus_agreesTo 2).bind fun _ => .refl _
  | hlt => exact (pcPlus_agreesTo 1).bind fun _ => .refl _

theorem fetchParam_agreesTo (h : Header) (j : Nat) :
    AgreesTo c s (fetchParam c s h j) (fetchParam Config.spec s h j) := by
  unfold fetchParam
  split
  next => exact (pcPlus_agreesTo j).bind fun a => fetchCell_agreesTo a
  next => exact .refl _

/-- A variant that ignores surplus digits decodes as the spec's machine (R61). -/
theorem decodeStep_eq_of_not_strict (hc : c.strictDigits = false) (w : Int) :
    decodeStep c w = decodeStep Config.spec w := by
  have hcheck : surplusCheck c = surplusCheck Config.spec := by
    funext n h
    simp [surplusCheck, hc, Config.spec]
  rw [decodeStep_eq, decodeStep_eq, decodeWord, decodeWord, hcheck]

theorem fetchWith_agreesTo (hc : c.strictDigits = false) :
    AgreesTo c s (fetchWith c s) (fetchWith Config.spec s) :=
  (fetchCell_agreesTo s.pc).bind fun w => AgreesTo.bind (.inl (decodeStep_eq_of_not_strict hc w)) fun h =>
    (fetchParam_agreesTo h 1).bind fun _ => (fetchParam_agreesTo h 2).bind fun _ =>
      (fetchParam_agreesTo h 3).bind fun _ => .refl _

/-- A cycle of a variant is the unbounded machine's, or it raises a limit fault. -/
theorem cycleWith_eq_or_raise (hc : c.strictDigits = false) :
    cycleWith c s = cycle s ∨ ∃ f, LimitFault c s f ∧ cycleWith c s = .next (s.raise f) := by
  have hagree : AgreesTo c s (outcomeWith c s) (outcomeWith Config.spec s) :=
    (fetchWith_agreesTo hc).bind fun i => effectWith_agreesTo i
  rw [cycle_eq_settle, cycleWith]
  rcases hagree with h | ⟨f, h, hf⟩
  · exact .inl (by rw [h])
  · exact .inr ⟨f, hf, by rw [h, settle]⟩

end

/-! ## Construction and the host's moves -/

/-- What stops the load of an image: a value outside the width or, where the capacity is finite, a cell above it. -/
def LoadFault (c : Variant) (f : FaultRecord) : Prop :=
  f.cause = .rangeError ∨ c.memCap ≠ none ∧ f.cause = .capacityError

/-- The load of an image in a variant is image load with every value fitting, or it is stopped. -/
theorem loadWith_cases (c : Variant) (m : Mem) (base : Nat) (img : Image) :
    (loadWith c m base img = .ok (m.load base img) ∧ ∀ v ∈ img, c.fits v = true) ∨
    ∃ f, loadWith c m base img = .error f ∧ LoadFault c f := by
  induction img generalizing m base with
  | nil => exact .inl ⟨rfl, by simp⟩
  | cons v vs ih =>
    simp only [loadWith, Mem.load, List.forall_mem_cons]
    by_cases hh : c.holds base = true
    · by_cases hv : c.fits v = true
      · simpa [hh, hv] using ih (m.write base v) (base + 1)
      · exact .inr ⟨⟨.rangeError, 0⟩, by simp [hh, hv], .inl rfl⟩
    · refine .inr ⟨⟨.capacityError, base⟩, by simp [hh], .inr ⟨fun hcap => hh ?_, rfl⟩⟩
      exact holds_of_memCap_eq_none hcap base

theorem constructWith_cases (c : Variant) (img : Image) (s : State) :
    (constructWith c img s = s.construct img ∧ ∀ v ∈ img, c.fits v = true) ∨
    ∃ f, constructWith c img s = (s.construct []).raise f ∧ LoadFault c f := by
  unfold constructWith
  rcases loadWith_cases c [] 0 img with ⟨h, hv⟩ | ⟨f, h, hf⟩
  · exact .inl ⟨by rw [h], hv⟩
  · exact .inr ⟨f, by rw [h], hf⟩

theorem applyWith_eq_or_fault (c : Variant) (m : HostMove) (s : State) :
    applyWith c m s = m.apply s ∨
    (applyWith c m s).runState = .faulted ∧ ∃ f, (applyWith c m s).fault = some f ∧ BoundedFault f := by
  cases m with
  | install | resume => exact .inl rfl
  | construct img =>
    rcases constructWith_cases c img s with ⟨h, -⟩ | ⟨f, h, hf⟩
    · exact .inl h
    · exact .inr ⟨congrArg State.runState h, f, congrArg State.fault h, hf.imp_right And.right⟩

theorem stepWith_of_inTransaction (c : Variant) {s : State} (h : s.inTransaction = true) :
    stepWith c s = cycleWith c s := if_pos h

theorem stepWith_of_moves_nil (c : Variant) {s : State} (h : s.inTransaction = false) (hm : s.moves = []) :
    stepWith c s = .next s := by
  simp [stepWith, h, hm]

theorem stepWith_of_moves_cons (c : Variant) {s : State} {m : HostMove} {ms : List HostMove}
    (h : s.inTransaction = false) (hm : s.moves = m :: ms) :
    stepWith c s = .next (applyWith c m { s with moves := ms }) := by
  simp [stepWith, h, hm]

/-- Settles O54: inside a transaction the cycles agree up to a limit fault, between transactions the moves do. -/
theorem boundedVariantAgrees : Obligations.BoundedVariantAgrees := by
  intro c s hc
  cases hs : s.inTransaction with
  | true =>
    rw [stepWith_of_inTransaction c hs, step_of_inTransaction hs]
    exact (cycleWith_eq_or_raise hc).imp_right fun ⟨f, hf, h⟩ => ⟨_, f, h, rfl, rfl, hf.bounded⟩
  | false =>
    rw [step_of_not_inTransaction hs]
    cases hm : s.moves with
    | nil => exact .inl (by rw [stepWith_of_moves_nil c hs hm, hostTurn_of_moves_nil hm])
    | cons m ms =>
      rw [stepWith_of_moves_cons c hs hm, hostTurn_of_moves_cons hm]
      rcases applyWith_eq_or_fault c m { s with moves := ms } with h | ⟨hr, f, hf, hb⟩
      · exact .inl (by rw [h])
      · exact .inr ⟨_, f, rfl, hr, hf, hb⟩

/-! ## What a variant holds fits its width -/

theorem fits_zero (c : Variant) : c.fits 0 = true := by
  unfold Variant.fits
  split
  next => rfl
  next W _ =>
    have hpos : (0 : Int) < 2 ^ (W - 1) := by positivity
    exact decide_eq_true ⟨by omega, by omega⟩

section
variable {c : Variant} {s t : State} {i : Instr}

theorem fitsAll_raise (h : FitsAll c s) (f : FaultRecord) : FitsAll c (s.raise f) :=
  ⟨h.mem, h.pc, h.rb, h.out⟩

theorem fits_of_fetchParam (h : FitsAll c s) {hdr : Header} {j : Nat} {p : Int}
    (hp : fetchParam c s hdr j = .ok p) : c.fits p = true := by
  unfold fetchParam at hp
  split at hp
  next =>
    obtain ⟨a, -, hcell⟩ := ok_of_bind_ok hp
    unfold fetchCell at hcell
    split at hcell <;> cases hcell
    exact h.mem a
  next =>
    cases hp
    exact fits_zero c

/-- An instruction fetched from a memory of the width is well formed for it. -/
theorem wellFormed_of_fetchWith (h : FitsAll c s) (hi : fetchWith c s = .ok i) : WellFormed c i = true := by
  obtain ⟨w, -, hi⟩ := ok_of_bind_ok hi
  obtain ⟨hdr, -, hi⟩ := ok_of_bind_ok hi
  obtain ⟨p1, h1, hi⟩ := ok_of_bind_ok hi
  obtain ⟨p2, h2, hi⟩ := ok_of_bind_ok hi
  obtain ⟨p3, h3, hi⟩ := ok_of_bind_ok hi
  cases hi
  have hall : ∀ p ∈ [p1, p2, p3], c.fits p = true := by
    simp [fits_of_fetchParam h h1, fits_of_fetchParam h h2, fits_of_fetchParam h h3]
  rw [WellFormed, header_instr_params, List.all_eq_true]
  exact fun p hp => hall p (List.mem_of_mem_take hp)

/-- The parameter words are those of the read parameters, then that of the write parameter (R53). -/
theorem params_eq (i : Instr) : i.params = i.sources.map Src.word ++ i.dest.toList.map Dst.word := by
  cases i <;> rfl

theorem word_mem_params {a : Src} (ha : a ∈ i.sources) : a.word ∈ i.params :=
  params_eq i ▸ List.mem_append_left _ (List.mem_map_of_mem ha)

theorem fits_of_readOperand (h : FitsAll c s) {a : Src} {x : Int} (ha : c.fits a.word = true)
    (hx : readOperand c s a = .ok x) : c.fits x = true := by
  unfold readOperand at hx
  split at hx
  next =>
    cases hx
    exact ha
  next =>
    obtain ⟨n, -, hn⟩ := ok_of_bind_ok hx
    cases hn
    exact h.mem n

theorem fits_read_write (h : FitsAll c s) {n : Nat} {v : Int} (hv : c.fits v = true) (b : Nat) :
    c.fits ((s.mem.write n v).read b) = true := by
  rw [Mem.read_write]
  split
  next => exact hv
  next => exact h.mem b

/-- What completes in a variant has checked every value it stores, and a taken jump goes to an operand. -/
theorem fitsAll_of_completes (h : FitsAll c s) (hwf : WellFormed c i = true) (hc : Completes c s i t) :
    FitsAll c t := by
  have hsrc : ∀ a ∈ i.sources, ∀ x, readOperand c s a = .ok x → c.fits x = true := fun a ha x hx =>
    fits_of_readOperand h (List.all_eq_true.1 hwf _ (word_mem_params ha)) hx
  cases hc with
  | store _ _ hv hpc => exact { h with mem := fits_read_write h hv, pc := hpc }
  | input _ hv hpc => exact { h with mem := fits_read_write h hv, pc := hpc }
  | wait => exact ⟨h.mem, h.pc, h.rb, h.out⟩
  | output ha hpc =>
    exact ⟨h.mem, hpc, h.rb, fun v hv => Option.some.inj hv ▸ hsrc _ (by simp [Instr.sources]) _ ha⟩
  | base hv hpc => exact ⟨h.mem, hpc, hv, h.out⟩
  | jump hi hn =>
    refine ⟨h.mem, hn.elim (hsrc _ ?_ _) id, h.rb, h.out⟩
    rcases hi with rfl | rfl <;> simp [Instr.sources]
  | halt hpc => exact ⟨h.mem, hpc, h.rb, h.out⟩

theorem fitsAll_cycleWith (h : FitsAll c s) (ht : cycleWith c s = .next t) : FitsAll c t := by
  rcases cycleWith_cases ht with ⟨f, rfl⟩ | ⟨i, hi, hc⟩
  · exact fitsAll_raise h f
  · exact fitsAll_of_completes h (wellFormed_of_fetchWith h hi) hc

theorem fitsAll_construct (s : State) {img : Image} (h : ∀ v ∈ img, c.fits v = true) :
    FitsAll c (s.construct img) where
  mem a := by
    rw [read_construct, List.getD_eq_getElem?_getD]
    cases ha : img[a]? with
    | none => exact fits_zero c
    | some v => exact h v (List.mem_of_getElem? ha)
  pc := fits_zero c
  rb := fits_zero c
  out := by simp

theorem fitsAll_applyWith (h : FitsAll c s) (m : HostMove) : FitsAll c (applyWith c m s) := by
  cases m with
  | construct img =>
    rw [applyWith]
    rcases constructWith_cases c img s with ⟨he, hv⟩ | ⟨f, he, -⟩
    · exact he ▸ fitsAll_construct s hv
    · exact he ▸ fitsAll_raise (fitsAll_construct s (by simp)) f
  | install src => exact ⟨h.mem, h.pc, h.rb, h.out⟩
  | resume b =>
    exact ⟨by simpa [applyWith] using h.mem, by simpa [applyWith] using h.pc, by simpa [applyWith] using h.rb,
      by simpa [applyWith] using h.out⟩

end

/-- Settles O55: a cycle keeps the width, and so does each host move. -/
theorem boundedVariantKeepsWidth : Obligations.BoundedVariantKeepsWidth := by
  intro c s t h ht
  cases hs : s.inTransaction with
  | true => exact fitsAll_cycleWith h (stepWith_of_inTransaction c hs ▸ ht)
  | false =>
    cases hm : s.moves with
    | nil =>
      rw [stepWith_of_moves_nil c hs hm] at ht
      cases ht
      exact h
    | cons m ms =>
      rw [stepWith_of_moves_cons c hs hm] at ht
      cases ht
      exact fitsAll_applyWith (s := { s with moves := ms }) ⟨h.mem, h.pc, h.rb, h.out⟩ m

/-- Settles O56: with infinite capacity the only limit fault is the RangeError, and it is taken, because without it
the variant would keep its width. -/
theorem rangeErrorWhereWidthIsLeft : Obligations.RangeErrorWhereWidthIsLeft := by
  intro c s hc hcap
  refine ⟨fun t hs h ht hleft => ?_, fun img ms hs hm ⟨v, hv, hfit⟩ => ?_⟩
  · rw [stepWith_of_inTransaction c hs]
    rw [step_of_inTransaction hs] at ht
    rcases cycleWith_eq_or_raise hc with heq | ⟨f, hf, hr⟩
    · exact absurd (fitsAll_cycleWith h (heq.trans ht)) hleft
    · rcases hf with rfl | ⟨hne, -⟩
      · exact hr
      · exact absurd hcap hne
  · rw [stepWith_of_moves_cons c hs hm]
    rcases constructWith_cases c img { s with moves := ms } with ⟨-, hall⟩ | ⟨f, he, hf⟩
    · simp [hall v hv] at hfit
    · refine ⟨_, f, rfl, congrArg State.runState he, congrArg State.fault he, hf.elim id fun ⟨hne, _⟩ => ?_⟩
      exact absurd hcap hne

end Sys2Proof.Machine
end

section
/-!
PROOFS. The program text (spec 30_encoding.md R66). The scan is followed through the text: over the white space before,
digit by digit through each integer, from comma to comma, and over the white space after.
-/
namespace Sys2Proof.Machine

/-! ## One character -/

/-- A character that completes no integer only moves the scan on. -/
theorem scan_cons_of_none {st st' : ScanState} {ch : Char} (h : scanChar st ch = some (st', none)) (cs : List Char) :
    scan st (ch :: cs) = scan st' cs := by
  cases st <;> simp only [scan, h]

/-- A character that completes an integer puts it before those to come. -/
theorem scan_cons_of_some {st st' : ScanState} {ch : Char} {v : Int} (h : scanChar st ch = some (st', some v))
    (cs : List Char) : scan st (ch :: cs) = (scan st' cs).map (v :: ·) := by
  cases st <;> simp only [scan, h]

theorem digitOf_digitChar {d : Nat} (h : d < 10) : digitOf d.digitChar = some d := by
  interval_cases d <;> rfl

theorem digitOf_of_isWs {ch : Char} (h : isWs ch = true) : digitOf ch = none := by
  simp only [isWs, Bool.or_eq_true, beq_iff_eq] at h
  rcases h with ((rfl | rfl) | rfl) | rfl <;> rfl

/-! ## An integer -/

/-- The scan stands before the digits of an integer of this sign. -/
def StartsDigits (neg : Bool) (st : ScanState) : Prop :=
  ∀ ch d, digitOf ch = some d → scanChar st ch = some (.digits neg d, none)

theorem startsDigits_lead : StartsDigits false .lead := fun ch d h => by simp only [scanChar, h]

theorem startsDigits_item : StartsDigits false .item := fun ch d h => by simp only [scanChar, h]

theorem startsDigits_minus : StartsDigits true .minus := fun ch d h => by simp only [scanChar, h]

theorem scanChar_digits {neg : Bool} {n d : Nat} {ch : Char} (h : digitOf ch = some d) :
    scanChar (.digits neg n) ch = some (.digits neg (10 * n + d), none) := by
  simp only [scanChar, h]

/-- The digits of a number leave the scan inside that number. -/
theorem scan_toDigits {neg : Bool} {st : ScanState} (hst : StartsDigits neg st) (n : Nat) (rest : List Char) :
    scan st (Nat.toDigits 10 n ++ rest) = scan (.digits neg n) rest := by
  induction n using Nat.strongRecOn generalizing rest with
  | ind n ih =>
    by_cases hn : n < 10
    · rw [Nat.toDigits_of_lt_base hn]
      exact scan_cons_of_none (hst _ n (digitOf_digitChar hn)) rest
    · have hlast : digitOf (n % 10).digitChar = some (n % 10) := digitOf_digitChar (by omega)
      rw [Nat.toDigits_of_base_le (by norm_num) (by omega), List.append_assoc, ih (n / 10) (by omega),
        List.singleton_append, scan_cons_of_none (scanChar_digits hlast), Nat.div_add_mod]

/-- The scan stands where an integer may begin, with its sign. -/
def StartsInt (st : ScanState) : Prop :=
  StartsDigits false st ∧ scanChar st '-' = some (.minus, none)

theorem startsInt_lead : StartsInt .lead := ⟨startsDigits_lead, rfl⟩

theorem startsInt_item : StartsInt .item := ⟨startsDigits_item, rfl⟩

theorem signed_natAbs (v : Int) : signed (decide (v < 0)) v.natAbs = v := by
  by_cases h : v < 0
  · rw [decide_eq_true h, signed, if_pos rfl]
    omega
  · rw [decide_eq_false h, signed, if_neg Bool.false_ne_true]
    omega

/-- The text of an integer leaves the scan inside that integer. -/
theorem scan_intText {st : ScanState} (hst : StartsInt st) (v : Int) (rest : List Char) :
    scan st (intText v ++ rest) = scan (.digits (decide (v < 0)) v.natAbs) rest := by
  obtain ⟨hdigits, hminus⟩ := hst
  unfold intText
  by_cases h : v < 0
  · rw [if_pos h, decide_eq_true h, List.cons_append, scan_cons_of_none hminus, scan_toDigits startsDigits_minus]
  · rw [if_neg h, decide_eq_false h, scan_toDigits hdigits]

/-! ## White space and commas -/

theorem scan_lead_append {before : List Char} (h : ∀ ch ∈ before, isWs ch = true) (cs : List Char) :
    scan .lead (before ++ cs) = scan .lead cs := by
  induction before with
  | nil => rfl
  | cons ch before ih =>
    obtain ⟨hch, htl⟩ := List.forall_mem_cons.1 h
    have hstay : scanChar .lead ch = some (.lead, none) := by simp [scanChar, digitOf_of_isWs hch, hch]
    rw [List.cons_append, scan_cons_of_none hstay, ih htl]

theorem scan_trail {after : List Char} (h : ∀ ch ∈ after, isWs ch = true) : scan .trail after = some [] := by
  induction after with
  | nil => rfl
  | cons ch after ih =>
    obtain ⟨hch, htl⟩ := List.forall_mem_cons.1 h
    have hstay : scanChar .trail ch = some (.trail, none) := by simp [scanChar, digitOf_of_isWs hch, hch]
    rw [scan_cons_of_none hstay, ih htl]

/-- The last integer ends with the text or with white space. -/
theorem scan_digits_end {after : List Char} (h : ∀ ch ∈ after, isWs ch = true) (neg : Bool) (n : Nat) :
    scan (.digits neg n) after = some [signed neg n] := by
  cases after with
  | nil => rfl
  | cons ch after =>
    obtain ⟨hch, htl⟩ := List.forall_mem_cons.1 h
    have hcomma : ch ≠ ',' := by
      rintro rfl
      cases hch
    have hend : scanChar (.digits neg n) ch = some (.trail, some (signed neg n)) := by
      simp [scanChar, digitOf_of_isWs hch, hch, hcomma]
    rw [scan_cons_of_some hend, scan_trail htl]
    rfl

/-- A comma ends an integer and another must follow. -/
theorem scan_digits_comma (neg : Bool) (n : Nat) (cs : List Char) :
    scan (.digits neg n) (',' :: cs) = (scan .item cs).map (signed neg n :: ·) :=
  scan_cons_of_some rfl cs

/-! ## The text of an image -/

theorem scan_imageText {after : List Char} (hafter : ∀ ch ∈ after, isWs ch = true) {st : ScanState}
    (hst : StartsInt st) (v : Int) (vs : List Int) : scan st (imageText (v :: vs) ++ after) = some (v :: vs) := by
  induction vs generalizing st v with
  | nil => rw [imageText, scan_intText hst, scan_digits_end hafter, signed_natAbs]
  | cons v' vs ih =>
    have htext : imageText (v :: v' :: vs) = intText v ++ ',' :: imageText (v' :: vs) := rfl
    rw [htext, List.append_assoc, List.cons_append, scan_intText hst, scan_digits_comma, ih startsInt_item,
      signed_natAbs, Option.map_some]

/-- Settles O58: the white space before is skipped, and the scan of the text before the white space is the image. -/
theorem programTextLoadsImage : Obligations.ProgramTextLoadsImage := by
  intro img before after hne hbefore hafter
  cases img with
  | nil => exact absurd rfl hne
  | cons v vs => rw [loadText, List.append_assoc, scan_lead_append hbefore, scan_imageText hafter startsInt_lead]

end Sys2Proof.Machine
end
